-- ==== Sys2Proof/Word.lean ====
section
/-! DEFINITION. The word types of QOI-CORE and the Pixel record (00_scope.md R13, R14). -/

namespace Sys2Proof

/-- `u8`, a byte (R13, R14). -/
abbrev Byte := BitVec 8

/-- `u32`, the width of WIDTH and HEIGHT (R14). -/
abbrev Word32 := BitVec 32

/-- A Pixel: four `u8` channels (R14). Two Pixels are equal when all four channels are equal; there is
no packed form. -/
structure Pixel where
  r : Byte
  g : Byte
  b : Byte
  a : Byte
  deriving DecidableEq, Repr

/-- `{0,0,0,0}`, what a cache slot holds at the start of a call (R24, R42). -/
def Pixel.zero : Pixel := ⟨0, 0, 0, 0⟩

/-- `{0,0,0,255}`, what PREV holds at the start of a call (R22, R42). -/
def Pixel.opaqueBlack : Pixel := ⟨0, 0, 0, 255⟩

end Sys2Proof
end

