-- ==== Sys2Proof/Config.lean ====
section
/-! DEFINITION. The constants the source fixes (00_scope.md R10) and the type of the one parameter it
leaves open (R12). No value here is configurable but the parameter's setting, which is a field of
State (log 7). -/

namespace Sys2Proof.Config

/-- HDR_LEN (R10). -/
def headerLength : Nat := 14

/-- TRL_LEN (R10). -/
def trailerLength : Nat := 8

/-- MIN_STREAM, 14 + 8 bytes (R10, 60_exceptions.md R271). -/
def minStream : Nat := 22

/-- MAGIC as four bytes, `71 6f 69 66` (40_header_trailer.md R120). -/
def magic : List Byte := [0x71, 0x6f, 0x69, 0x66]

/-- TRAILER (40_header_trailer.md R120). -/
def trailer : List Byte := [0, 0, 0, 0, 0, 0, 0, 1]

/-- RUN_MAX, the longest run one RUN opcode carries (R10), as the 6-bit RUN register holds it. -/
def runMax : BitVec 6 := 62

/-- The settings of DEC_BAD_CHANNELS: what a decode call does when header byte 12 is neither 3 nor 4
(R12, 93_implementation_defined.md U1). -/
inductive DecBadChannels where
  /-- The spec's default: the model gives the call no result and no failure. -/
  | refuse
  /-- Any value other than 3 writes four bytes a pixel. -/
  | as4
  /-- A decode failure of the implementation's own, which the source does not have. -/
  | fault
  deriving DecidableEq, Repr

end Sys2Proof.Config
end

