-- ==== Sys2Proof/Syntax.lean ====
section
/-! DEFINITION. The instructions of QOI-CORE: one constructor per row of spec/opcode_table.json.
Operands are the values before bias, in the order of the listing syntax (30_encoding.md R108). -/

namespace Sys2Proof

/-- The six opcodes and the two pseudo-instructions (30_encoding.md R102, R106, R107). -/
inductive Instr where
  /-- `RGB r, g, b` (R97). -/
  | rgb (r g b : Byte)
  /-- `RGBA r, g, b, a` (R98). -/
  | rgba (r g b a : Byte)
  /-- `INDEX i`, a cache slot (R93). -/
  | index (i : Fin 64)
  /-- `DIFF dr, dg, db`, signed differences (R94). -/
  | diff (dr dg db : Int)
  /-- `LUMA dg, drg, dbg`: the green difference, and red and blue differences minus green's (R95). -/
  | luma (dg drg dbg : Int)
  /-- `RUN n`, n the run length (R96, R108). -/
  | run (n : Nat)
  /-- `HDR w, h, c, cs` (R106). -/
  | hdr (w h : Word32) (c cs : Byte)
  /-- `END` (R107). -/
  | endMarker
  deriving DecidableEq, Repr

/-- Where the decoder stands when it reads: HDR is recognised by position, offset 0 of the stream, and
everything else at an opcode boundary (30_encoding.md R106, R107). -/
inductive Position where
  | first
  | boundary
  deriving DecidableEq, Repr

/-- The position at which an instruction is recognised. -/
def Instr.position : Instr → Position
  | .hdr .. => .first
  | .rgb .. | .rgba .. | .index .. | .diff .. | .luma .. | .run .. | .endMarker => .boundary

/-- The names under which the decoder rejects bytes: the source's three decode failures
(60_exceptions.md R271 to R273). There is no illegal opcode (R102). -/
inductive Reject where
  | tooShort
  | badMagic
  | missingEndMarker
  deriving DecidableEq, Repr

end Sys2Proof
end

