-- ==== Sys2Proof/WellFormed.lean ====
section
/-! DEFINITION. Which terms of `Instr` are instructions: the operand ranges of 30_encoding.md R100 and
R108. Operands whose type already carries the range (bytes, words, a slot number) need no check. -/

namespace Sys2Proof

/-- The operand ranges of 30_encoding.md R100, R108. -/
def Instr.wellFormed (i : Instr) : Bool :=
  match i with
  | .rgb .. | .rgba .. | .index .. | .hdr .. | .endMarker => true
  | .diff dr dg db => decide ((-2 ≤ dr ∧ dr ≤ 1) ∧ (-2 ≤ dg ∧ dg ≤ 1) ∧ (-2 ≤ db ∧ db ≤ 1))
  | .luma dg drg dbg => decide ((-32 ≤ dg ∧ dg ≤ 31) ∧ (-8 ≤ drg ∧ drg ≤ 7) ∧ (-8 ≤ dbg ∧ dbg ≤ 7))
  | .run n => decide (1 ≤ n ∧ n ≤ 62)

/-- The check holds. -/
abbrev Instr.WellFormed (i : Instr) : Prop := i.wellFormed = true

end Sys2Proof
end

