-- ==== Sys2Proof/Decode.lean ====
section
/-! DEFINITION. Decoding bytes to an instruction or a named rejection, total on any bytes, and the
encoder of an instruction, both from the encoding tables of 30_encoding.md (R90 to R107); then the
opcode table's own numbering of an instruction's bits. -/

namespace Sys2Proof

/-! ## Byte order (20_memory.md R64, 00_scope.md R17) -/

/-- `BE32`: the big-endian reading of four bytes. -/
def be32Read (b0 b1 b2 b3 : Byte) : Word32 := b0 ++ b1 ++ b2 ++ b3

/-- `be32`: the four bytes of a u32, most significant first. -/
def be32Bytes (v : Word32) : List Byte :=
  [v.extractLsb' 24 8, v.extractLsb' 16 8, v.extractLsb' 8 8, v.extractLsb' 0 8]

/-! ## Operand fields (30_encoding.md R100) -/

/-- The value of a biased field: stored minus bias. -/
def unbias (bias : Int) {w : Nat} (field : BitVec w) : Int := (field.toNat : Int) - bias

/-- The byte that holds a biased value in its low bits: value plus bias. -/
def biased (bias d : Int) : Byte := BitVec.ofInt 8 (d + bias)

/-! ## Decoding -/

/-- The opcode a tag byte and the bytes after it stand for (R92 to R98): `fe` and `ff` are tested before
the top two bits. Where the payload is cut off, the stream ends before its trailer. -/
def decodeTag (t : Byte) (rest : List Byte) : Except Reject (Instr × List Byte) :=
  if t = 0xfe then
    match rest with
    | r :: g :: b :: rest => .ok (.rgb r g b, rest)
    | _ => .error .missingEndMarker
  else if t = 0xff then
    match rest with
    | r :: g :: b :: a :: rest => .ok (.rgba r g b a, rest)
    | _ => .error .missingEndMarker
  else if t.extractLsb' 6 2 = 0b11 then
    .ok (.run ((t.extractLsb' 0 6).toNat + 1), rest)
  else if t.extractLsb' 6 2 = 0b00 then
    .ok (.index (t.extractLsb' 0 6).toFin, rest)
  else if t.extractLsb' 6 2 = 0b01 then
    .ok (.diff (unbias 2 (t.extractLsb' 4 2)) (unbias 2 (t.extractLsb' 2 2)) (unbias 2 (t.extractLsb' 0 2)), rest)
  else
    match rest with
    | u :: rest => .ok (.luma (unbias 32 (t.extractLsb' 0 6)) (unbias 8 (u.extractLsb' 4 4)) (unbias 8 (u.extractLsb' 0 4)), rest)
    | [] => .error .missingEndMarker

/-- The boundary test and the dispatch (43_decoder.md R200, R201): the trailer first, then fewer than 8
bytes, then the tag. -/
def decodeBoundary (bytes : List Byte) : Except Reject (Instr × List Byte) :=
  if bytes.take Config.trailerLength = Config.trailer then
    .ok (.endMarker, bytes.drop Config.trailerLength)
  else if bytes.length < Config.trailerLength then
    .error .missingEndMarker
  else
    match bytes with
    | t :: rest => decodeTag t rest
    | [] => .error .missingEndMarker

/-- The header at offset 0 (40_header_trailer.md R122 to R124): the length first, then the magic, then
the fields in their order. -/
def decodeHeader (bytes : List Byte) : Except Reject (Instr × List Byte) :=
  if bytes.length < Config.minStream then .error .tooShort
  else if bytes.take 4 = Config.magic then
    match bytes.drop 4 with
    | w0 :: w1 :: w2 :: w3 :: h0 :: h1 :: h2 :: h3 :: c :: cs :: rest =>
      .ok (.hdr (be32Read w0 w1 w2 w3) (be32Read h0 h1 h2 h3) c cs, rest)
    | _ => .error .tooShort
  else .error .badMagic

/-- Reads one instruction from the bytes that lie from the read position to the end of the stream. -/
def decode (p : Position) (bytes : List Byte) : Except Reject (Instr × List Byte) :=
  match p with
  | .first => decodeHeader bytes
  | .boundary => decodeBoundary bytes

/-! ## Encoding -/

/-- The bytes of a well-formed instruction (R93 to R98, R106, R107). An operand out of its range gives
bytes that stand for no such instruction (log 23). -/
def encode : Instr → List Byte
  | .rgb r g b => [0xfe, r, g, b]
  | .rgba r g b a => [0xff, r, g, b, a]
  | .index i => [BitVec.ofNat 8 i.val]
  | .diff dr dg db => [0x40 ||| (biased 2 dr <<< 4) ||| (biased 2 dg <<< 2) ||| biased 2 db]
  | .luma dg drg dbg => [0x80 ||| biased 32 dg, (biased 8 drg <<< 4) ||| biased 8 dbg]
  | .run n => [0xc0 ||| biased (-1) n]
  | .hdr w h c cs => Config.magic ++ be32Bytes w ++ be32Bytes h ++ [c, cs]
  | .endMarker => Config.trailer

/-- The length of an instruction in bytes (R99). -/
def Instr.length : Instr → Nat
  | .index .. | .diff .. | .run .. => 1
  | .luma .. => 2
  | .rgb .. => 4
  | .rgba .. => 5
  | .hdr .. => 14
  | .endMarker => 8

/-! ## The opcode table's numbering (30_encoding.md R110, log 18)

The first byte of an instruction is bits 7..0, the next 15..8, and so on. The rows of HDR and END give
their fixed bytes as ONE number, most significant byte first; that number is read as they mean it. -/

/-- The low `n` bytes of `w`, least significant first. -/
def littleEndianBytes : Nat → Nat → List Byte
  | 0, _ => []
  | n + 1, w => BitVec.ofNat 8 w :: littleEndianBytes n (w / 256)

/-- The HDR row's own number for the magic stands in the low 32 bits. -/
def isHdrRowWord (nbits w : Nat) : Bool := decide (32 ≤ nbits) && decide (w % 2 ^ 32 = 0x716f6966)

/-- The END row's own number for the trailer. -/
def isEndRowWord (nbits w : Nat) : Bool := decide (nbits = 64) && decide (w = 1)

/-- The 22 bytes at the instruction's place: its own, then zeros. 22 is what the longest instruction,
HDR, needs in front of it (R122). -/
def tableBytes (nbits w : Nat) : List Byte :=
  if isHdrRowWord nbits w then Config.magic ++ littleEndianBytes 18 (w % 2 ^ nbits / 2 ^ 32)
  else if isEndRowWord nbits w then Config.trailer ++ littleEndianBytes 14 0
  else littleEndianBytes 22 (w % 2 ^ nbits)

/-- HDR stands at offset 0 and everything else at an opcode boundary: the HDR row is the one longer than
LUMA whose bytes begin with the magic. -/
def tablePosition (nbits w : Nat) : Position :=
  if 32 ≤ nbits ∧ (tableBytes nbits w).take 4 = Config.magic then .first else .boundary

/-- The instruction the decoder reads from a word of the opcode table. -/
def decodeTableWord (nbits w : Nat) : Option Instr :=
  match decode (tablePosition nbits w) (tableBytes nbits w) with
  | .ok (i, _) => some i
  | .error _ => none

end Sys2Proof
end

