-- ==== Sys2Proof/Machine/State.lean ====
section
/-! DEFINITION. The state of QOI-CORE as plain data (10_state.md R20 to R44), what the machine stops
with, and the state after power-on reset. -/

namespace Sys2Proof.Machine

/-- MODE: which of the two functions a call computes (10_state.md R28). -/
inductive Mode where
  | enc
  | dec
  deriving DecidableEq, Repr

/-- STATE (10_state.md R36). -/
inductive Status where
  | idle
  | running
  | done
  | failed
  deriving DecidableEq, Repr

/-- The five failures of a call (60_exceptions.md R270). They are results, not faults of the model
(R282). -/
inductive Failure where
  | tooShort
  | badMagic
  | missingEndMarker
  | invalidChannels
  | sizeMismatch
  deriving DecidableEq, Repr

/-- A byte-addressed space as a list of (address, byte) cells in one canonical form: addresses strictly
rising and no cell equal to what an unlisted address reads as (`Memory.wf`, Machine/Ops.lean, log 2). -/
abbrev Memory := List Host.Cell

/-- A mark on each descriptor register. -/
structure DescriptorMask where
  width : Bool
  height : Bool
  channels : Bool
  colorspace : Bool
  deriving DecidableEq, Repr

/-- No register marked. -/
def DescriptorMask.none : DescriptorMask := ⟨false, false, false, false⟩

/-- Every register marked. -/
def DescriptorMask.all : DescriptorMask := ⟨true, true, true, true⟩

/-- A move of the host while the block is quiescent (44_byte_streamer.md R240, R244; 10_state.md R38).
Reading is no move: it is a function of the state (`hostReadings`). -/
inductive HostMove where
  /-- Write MODE. -/
  | setMode (m : Mode)
  /-- Write WIDTH. -/
  | setWidth (w : Word32)
  /-- Write HEIGHT. -/
  | setHeight (h : Word32)
  /-- Write CHANNELS. -/
  | setChannels (c : Byte)
  /-- Write COLORSPACE. -/
  | setColorspace (cs : Byte)
  /-- Fill SRC and write its length to SRC_LEN (log 3). -/
  | fillSource (bytes : List Byte)
  /-- `start` (R241). -/
  | start
  /-- Power-on reset (70_reset_and_hazards.md R310, log 6). -/
  | powerOnReset
  deriving DecidableEq, Repr

/-- The machine's state: the registers of 10_state.md R20, the two buffers of R39, and three fields of the
model's own, which no rule of a call reads but DEC_BAD_CHANNELS. -/
structure State where
  /-- PREV, the previous-pixel register (R22). -/
  prev : Pixel
  /-- PX, the working pixel (R23). -/
  px : Pixel
  /-- CACHE[0..63] (R24). -/
  cache : Vector Pixel 64
  /-- RUN, the open run-length counter, 6 bits (R25). -/
  run : BitVec 6
  /-- RP, the read position in SRC (R26); a counter that never wraps (00_scope.md R11, log 1). -/
  rp : Nat
  /-- SNK_LEN, the number of bytes appended in this call (R27). -/
  snkLen : Nat
  /-- MODE (R28). -/
  mode : Mode
  /-- WIDTH (R29). -/
  width : Word32
  /-- HEIGHT (R30). -/
  height : Word32
  /-- CHANNELS (R31). -/
  channels : Byte
  /-- COLORSPACE (R32). -/
  colorspace : Byte
  /-- SRC_LEN (R33). -/
  srcLen : Nat
  /-- STATE (R36). -/
  status : Status
  /-- ERR (R37): none is code 0 (log 20). -/
  err : Option Failure
  /-- SRC, the source buffer, bytes 0 to SRC_LEN - 1 (R39). -/
  src : Memory
  /-- SNK, the append-only sink (R39, 20_memory.md R63), first byte first (log 4). -/
  snk : List Byte
  /-- The setting of DEC_BAD_CHANNELS, a parameter of a call (R41, 00_scope.md R12, log 7). -/
  decBadChannels : Config.DecBadChannels
  /-- The moves the host will make, the next one first (log 10). -/
  host : List HostMove
  /-- The descriptor registers with no value for the host to read: a decode call has started since the host
  last wrote them (R42, 60_exceptions.md R280, log 26). Only `hostReadings` looks at it. -/
  withheld : DescriptorMask
  deriving DecidableEq, Repr

/-- Why the machine stops with a fault. -/
inductive Fault where
  /-- A read of SRC outside 0 to SRC_LEN - 1 (00_scope.md R17), raised by the encoder's `readPixel`. Safe:
  the spec shows that no rule does it (20_memory.md R62), and no reachable state raises it. -/
  | srcOutOfRange
  /-- DEC_BAD_CHANNELS is `fault` and a decode call whose CHANNELS byte is neither 3 nor 4 meets the
  trailer; raised by END (93_implementation_defined.md U1, log 8). Safe: the source defines no result. -/
  | decBadChannels
  deriving DecidableEq, Repr

/-- Why the machine gives an instruction no meaning. -/
inductive Refusal where
  /-- An arm of `exec` that has no meaning yet. -/
  | notModelled (mnemonic : String)
  /-- DEC_BAD_CHANNELS is `refuse`, the spec's default, and the CHANNELS byte of a decode call is neither 3
  nor 4: raised by every decoded opcode and END (43_decoder.md R214, 93_implementation_defined.md U1).
  Safe. -/
  | decBadChannels
  /-- An encode step with CHANNELS other than 3 or 4, for which `read_pixel` has no rule (42_encoder.md
  R161). Safe: InvalidChannels comes first (60_exceptions.md R274), so no reachable state raises it. -/
  | encChunkUndefined
  deriving DecidableEq, Repr

/-- The three outcomes of a step of this machine. -/
abbrev Result := Host.Outcome State Fault Refusal

/-- The state after power-on reset (10_state.md R43: STATE, ERR, SNK_LEN, RUN and RP; every other
register is unspecified there, and its value here is the model's choice, log 5). -/
def State.reset : State where
  prev := Pixel.opaqueBlack
  px := Pixel.zero
  cache := Vector.replicate 64 Pixel.zero
  run := 0
  rp := 0
  snkLen := 0
  mode := .enc
  width := 0
  height := 0
  channels := 0
  colorspace := 0
  srcLen := 0
  status := .idle
  err := none
  src := []
  snk := []
  decBadChannels := .refuse
  host := []
  withheld := DescriptorMask.none

end Sys2Proof.Machine
end

