-- ==== Sys2Proof/Machine/Ops.lean ====
section
/-! DEFINITION. The named operations over memory and registers: sequencing of outcomes, SRC and SNK, the
running cache, the fetch, taking a failure (`raise`), the end and the start of a call, and power-on
reset. There is no return from a failure (60_exceptions.md R281): the only way on is `start`. -/

namespace Sys2Proof.Machine

/-- Goes on with `f` where the outcome is a next state; a fault or a refusal stands. -/
def andThen (o : Result) (f : State → Result) : Result :=
  match o with
  | .next s => f s
  | .fault r => .fault r
  | .refused r => .refused r

/-! ## SRC (20_memory.md R60, 00_scope.md R17) -/

/-- What an address that no cell lists reads as (log 2). -/
def Memory.unlisted : Byte := 0

/-- The byte at an address. -/
def Memory.read : Memory → Nat → Byte
  | [], _ => Memory.unlisted
  | c :: m, a => if c.1 = a then c.2 else Memory.read m a

/-- A byte in front of the cells of higher addresses, unless an unlisted address reads as that byte. -/
def Memory.consCell (a : Nat) (b : Byte) (m : Memory) : Memory :=
  if b = Memory.unlisted then m else (a, b) :: m

/-- Stores one byte and keeps the canonical form. -/
def Memory.write : Memory → Nat → Byte → Memory
  | [], a, b => Memory.consCell a b []
  | c :: m, a, b =>
    if c.1 < a then c :: Memory.write m a b
    else if c.1 = a then Memory.consCell a b m
    else Memory.consCell a b (c :: m)

/-- Stores the bytes at the addresses from `a` on. -/
def Memory.writeList : Memory → Nat → List Byte → Memory
  | m, _, [] => m
  | m, a, b :: bs => Memory.writeList (Memory.write m a b) (a + 1) bs

/-- The memory that holds the bytes from address `a` on and nothing else. -/
def Memory.ofList : Nat → List Byte → Memory
  | _, [] => []
  | a, b :: bs => Memory.consCell a b (Memory.ofList (a + 1) bs)

/-- The `n` bytes from `a` on, lowest address first. -/
def Memory.slice (m : Memory) : Nat → Nat → List Byte
  | _, 0 => []
  | a, n + 1 => m.read a :: m.slice (a + 1) n

/-- Every cell's address is at least `a`, and they rise strictly; no cell holds what an unlisted address
reads as. -/
def Memory.wfFrom : Nat → Memory → Bool
  | _, [] => true
  | a, c :: m => decide (a ≤ c.1) && decide (c.2 ≠ Memory.unlisted) && Memory.wfFrom (c.1 + 1) m

/-- The canonical form. -/
def Memory.wf (m : Memory) : Bool := Memory.wfFrom 0 m

/-- Every cell lies below `n`. -/
def Memory.below (n : Nat) (m : Memory) : Bool := m.all fun c => decide (c.1 < n)

/-! ## SNK -/

/-- `MemWrite(SNK, bytes)`, of which `emit` is the encoder's name (00_scope.md R17). -/
def memWrite (bytes : List Byte) (s : State) : State :=
  { s with snk := s.snk ++ bytes, snkLen := s.snkLen + bytes.length }

/-- The encoder emits an instruction: its bytes are appended (42_encoder.md R166 to R172,
40_header_trailer.md R121, R126). -/
def emit (i : Instr) (s : State) : State := memWrite (encode i) s

/-- `emit_run` (42_encoder.md R175), for the run length `n`: the byte, then RUN is 0. -/
def emitRun (n : Nat) (s : State) : State := { emit (.run n) s with run := 0 }

/-! ## The running cache (41_running_cache.md R140 to R144) -/

/-- `hash(p)` (R140): the sum over natural numbers, then `mod 64`. -/
def hashSlot (p : Pixel) : Fin 64 :=
  ⟨(p.r.toNat * 3 + p.g.toNat * 5 + p.b.toNat * 7 + p.a.toNat * 11) % 64, Nat.mod_lt _ (by decide)⟩

/-- `lookup(i)` (R144). -/
def lookup (i : Fin 64) (s : State) : Pixel := s.cache[i]

/-- `insert(p)` (R143): one slot is overwritten, the other 63 stay. -/
def insertPixel (p : Pixel) (s : State) : State := { s with cache := s.cache.set (hashSlot p) p }

/-! ## Failures and the end of a call -/

/-- The code ERR holds (60_exceptions.md R270). -/
def errCode : Option Failure → BitVec 3
  | none => 0
  | some .tooShort => 1
  | some .badMagic => 2
  | some .missingEndMarker => 3
  | some .invalidChannels => 4
  | some .sizeMismatch => 5

/-- The failure a rejection of the decoder is. -/
def Reject.failure : Reject → Failure
  | .tooShort => .tooShort
  | .badMagic => .badMagic
  | .missingEndMarker => .missingEndMarker

/-- `raise <Failure>` (60_exceptions.md R280): ERR gets the code, the sink is discarded, SNK_LEN is 0,
STATE is FAILED. Nothing is saved: there is no handler. After a failed decode call the descriptor may hold
anything (93_implementation_defined.md U7); here it keeps what it held (DESIGN CHOICE, log 24), and it
stays withheld from the host, register by register, until the host writes it (`hostReadings`). -/
def raise (f : Failure) (s : State) : State :=
  { s with err := some f, snk := [], snkLen := 0, status := .failed }

/-- The successful end of a call (44_byte_streamer.md R249); ERR stays 0. -/
def finish (s : State) : State := { s with status := .done }

/-! ## Start and reset -/

/-- The descriptor registers the host has no value to read from once a call starts: every one in a decode call
(10_state.md R42); in an encode call those that were withheld, unless the call before completed, which
leaves them with its values (R36). -/
def withheldAtStart (s : State) : DescriptorMask :=
  match s.mode with
  | .dec => .all
  | .enc => if s.status = .done then .none else s.withheld

/-- `start` (44_byte_streamer.md R241): the start-of-call values of 10_state.md R42. PX is not among them, and
in a decode call neither are WIDTH, HEIGHT, CHANNELS and COLORSPACE until the header is parsed: R42
leaves them unspecified, and here they keep what they held (DESIGN CHOICE, log 24), withheld from the
host. -/
def start (s : State) : State :=
  { s with
    cache := Vector.replicate 64 Pixel.zero
    prev := Pixel.opaqueBlack
    run := 0
    rp := 0
    snk := []
    snkLen := 0
    err := none
    status := .running
    withheld := withheldAtStart s }

/-- Power-on reset (10_state.md R43, 70_reset_and_hazards.md R310, R312): the control side; the registers
R43 leaves unspecified stay as they were (93_implementation_defined.md U7, log 6). -/
def powerOn (s : State) : State :=
  { s with status := .idle, err := none, snk := [], snkLen := 0, run := 0, rp := 0 }

/-- The effect of a move of the host (44_byte_streamer.md R240, R244). A register the host writes is no longer
withheld from it (10_state.md R38). -/
def hostMove (m : HostMove) (s : State) : State :=
  match m with
  | .setMode m => { s with mode := m }
  | .setWidth w => { s with width := w, withheld := { s.withheld with width := false } }
  | .setHeight h => { s with height := h, withheld := { s.withheld with height := false } }
  | .setChannels c => { s with channels := c, withheld := { s.withheld with channels := false } }
  | .setColorspace cs => { s with colorspace := cs, withheld := { s.withheld with colorspace := false } }
  | .fillSource bytes => { s with src := Memory.ofList 0 bytes, srcLen := bytes.length }
  | .start => start s
  | .powerOnReset => powerOn s

/-! ## The fetch -/

/-- HDR is read at offset 0, everything else at an opcode boundary (30_encoding.md R106, R107). RP is 0
only before the header is parsed (10_state.md R44 (f)). -/
def position (s : State) : Position := if s.rp = 0 then .first else .boundary

/-- The bytes from RP on that the decoder looks at: what remains of SRC, 22 bytes at most, which is what
the header's length check needs and more than any boundary does. -/
def window (s : State) : List Byte := s.src.slice s.rp (min Config.minStream (s.srcLen - s.rp))

end Sys2Proof.Machine
end

