-- ==== Sys2Proof/Machine/Operands.lean ====
section
/-! DEFINITION. The operand forms: the pixel chunk the encoder reads (42_encoder.md R161), the pixel
chunk the decoder writes (43_decoder.md R202, with DEC_BAD_CHANNELS where the source has no rule), the
modular addition of the delta opcodes (R209), and the shape the decoded opcodes share (R204). -/

namespace Sys2Proof.Machine

/-- CHANNELS is 3 or 4, the two defined values (30_encoding.md R103). -/
abbrev channelsDefined (s : State) : Prop := s.channels = 3 ∨ s.channels = 4

/-- PX takes the pixel of the chunk at RP, and RP moves behind the chunk's `n` bytes. -/
def takePixel (n : Nat) (p : Pixel) (s : State) : State := { s with px := p, rp := s.rp + n }

/-- `read_pixel(RP)` and the advance of RP (42_encoder.md R160, R161): with three channels alpha is 255
and no fourth byte is read. -/
def readPixel (s : State) : Result :=
  if s.channels = 3 then
    if s.rp + 3 ≤ s.srcLen then
      .next (takePixel 3 ⟨s.src.read s.rp, s.src.read (s.rp + 1), s.src.read (s.rp + 2), 255⟩ s)
    else .fault .srcOutOfRange
  else if s.channels = 4 then
    if s.rp + 4 ≤ s.srcLen then
      .next (takePixel 4 ⟨s.src.read s.rp, s.src.read (s.rp + 1), s.src.read (s.rp + 2), s.src.read (s.rp + 3)⟩ s)
    else .fault .srcOutOfRange
  else .refused .encChunkUndefined

/-- The bytes one pixel adds to the sink (43_decoder.md R202); none where the call has no meaning. With a
CHANNELS byte other than 3 and 4: `as4` writes four bytes, `fault` writes nothing, as the call will have
no result, and `refuse` gives the write no meaning (93_implementation_defined.md U1, log 7, 8). -/
def pixelChunk (s : State) (p : Pixel) : Option (List Byte) :=
  if s.channels = 3 then some [p.r, p.g, p.b]
  else if s.channels = 4 then some [p.r, p.g, p.b, p.a]
  else
    match s.decBadChannels with
    | .refuse => none
    | .as4 => some [p.r, p.g, p.b, p.a]
    | .fault => some []

/-- `write_pixel(p)` (43_decoder.md R202). -/
def writePixel (p : Pixel) (s : State) : Result :=
  match pixelChunk s p with
  | some bytes => .next (memWrite bytes s)
  | none => .refused .decBadChannels

/-- `repeat n times: write_pixel(p)` (43_decoder.md R208). -/
def writePixels : Nat → Pixel → State → Result
  | 0, _, s => .next s
  | n + 1, p, s => andThen (writePixel p s) (writePixels n p)

/-- `add8(c, d)` (43_decoder.md R209). -/
def add8 (c : Byte) (d : Int) : Byte := BitVec.ofInt 8 (c.toNat + d)

/-- PREV is the pixel an opcode of `len` bytes stands for, and so is PX, the pixel just reconstructed
(10_state.md R23, log 14); RP moves past the opcode. -/
def reconstruct (len : Nat) (p : Pixel) (s : State) : State :=
  { s with rp := s.rp + len, px := p, prev := p }

/-- What RGB, RGBA, DIFF and LUMA share (43_decoder.md R204): PREV becomes the new pixel, it is written,
and it is inserted after PREV holds it (R203). -/
def newPixel (len : Nat) (p : Pixel) (s : State) : Result :=
  andThen (writePixel p (reconstruct len p s)) fun s => .next (insertPixel p s)

/-- What INDEX and RUN share: the pixel is written `n` times and CACHE is not touched (41_running_cache.md
R145). -/
def oldPixel (n : Nat) (p : Pixel) (s : State) : Result :=
  writePixels n p (reconstruct 1 p s)

end Sys2Proof.Machine
end

