-- ==== Sys2Proof/Machine/Delta.lean ====
section
/-! DEFINITION. DIFF and LUMA: opcodes that add differences to PREV with 8-bit wrap-around and keep its
alpha. MODE selects the decoder's meaning or the encoder's emission (log 13). -/

namespace Sys2Proof.Machine

/-- DIFF. Decoded: 43_decoder.md R206. Emitted: 42_encoder.md R170. -/
def execDiff (dr dg db : Int) (s : State) : Result :=
  match s.mode with
  | .enc => .next (emit (.diff dr dg db) s)
  | .dec => newPixel 1 ⟨add8 s.prev.r dr, add8 s.prev.g dg, add8 s.prev.b db, s.prev.a⟩ s

/-- LUMA. Decoded (43_decoder.md R207): the red and blue deltas are green's plus the stored ones, added as
integers before the one `mod 256`. Emitted: 42_encoder.md R171. -/
def execLuma (dg drg dbg : Int) (s : State) : Result :=
  match s.mode with
  | .enc => .next (emit (.luma dg drg dbg) s)
  | .dec => newPixel 2 ⟨add8 s.prev.r (dg + drg), add8 s.prev.g dg, add8 s.prev.b (dg + dbg), s.prev.a⟩ s

end Sys2Proof.Machine
end

