-- ==== Sys2Proof/Machine/Framing.lean ====
section
/-! DEFINITION. HDR and END, the pseudo-instructions of the header and trailer serializer
(40_header_trailer.md). MODE selects the decoder's meaning or the encoder's (log 13). -/

namespace Sys2Proof.Machine

/-- The descriptor registers take the header's fields, unchecked, and RP is 14. -/
def loadHeader (w h : Word32) (c cs : Byte) (s : State) : State :=
  { s with width := w, height := h, channels := c, colorspace := cs, rp := Config.headerLength }

/-- HDR. Parsed (40_header_trailer.md R124, R125), with no failure of its own. Serialized: R121. -/
def execHdr (w h : Word32) (c cs : Byte) (s : State) : Result :=
  match s.mode with
  | .enc => .next (emit (.hdr w h c cs) s)
  | .dec => .next (loadHeader w h c cs s)

/-- The end of a decode call at its trailer (44_byte_streamer.md R249). A call whose CHANNELS byte is
neither 3 nor 4 ends as DEC_BAD_CHANNELS says: no result, four bytes a pixel, or the implementation's
own failure (43_decoder.md R214, 93_implementation_defined.md U1, log 7, 8). -/
def finishDecode (s : State) : Result :=
  if channelsDefined s then .next (finish s)
  else
    match s.decBadChannels with
    | .refuse => .refused .decBadChannels
    | .as4 => .next (finish s)
    | .fault => .fault .decBadChannels

/-- END. Detected (40_header_trailer.md R127): the call ends with success and RP stays at the trailer's
first byte. Appended (R126), which ends the encode call (44_byte_streamer.md R245). -/
def execEnd (s : State) : Result :=
  match s.mode with
  | .enc => .next (finish (emit .endMarker s))
  | .dec => finishDecode s

end Sys2Proof.Machine
end

