-- ==== Sys2Proof/Machine/Literal.lean ====
section
/-! DEFINITION. RGB and RGBA: opcodes that carry their channels as raw bytes. MODE selects the decoder's
meaning or the encoder's emission (log 13). -/

namespace Sys2Proof.Machine

/-- RGB. Decoded (43_decoder.md R210): three raw channels, alpha kept. Emitted: 42_encoder.md R172. -/
def execRgb (r g b : Byte) (s : State) : Result :=
  match s.mode with
  | .enc => .next (emit (.rgb r g b) s)
  | .dec => newPixel 4 ⟨r, g, b, s.prev.a⟩ s

/-- RGBA. Decoded (43_decoder.md R211): four raw channels, whatever CHANNELS is. Emitted: 42_encoder.md
R169. -/
def execRgba (r g b a : Byte) (s : State) : Result :=
  match s.mode with
  | .enc => .next (emit (.rgba r g b a) s)
  | .dec => newPixel 5 ⟨r, g, b, a⟩ s

end Sys2Proof.Machine
end

