-- ==== Sys2Proof/Machine/Reference.lean ====
section
/-! DEFINITION. INDEX and RUN: opcodes that repeat a pixel the machine already holds and never write
CACHE (41_running_cache.md R145). MODE selects the decoder's meaning or the encoder's emission
(log 13). -/

namespace Sys2Proof.Machine

/-- INDEX. Decoded (43_decoder.md R205): PREV becomes the slot's pixel, alpha included. Emitted:
42_encoder.md R166. -/
def execIndex (i : Fin 64) (s : State) : Result :=
  match s.mode with
  | .enc => .next (emit (.index i) s)
  | .dec => oldPixel 1 (lookup i s) s

/-- RUN. Decoded (43_decoder.md R208): PREV is written `n` times within this one step. Emitted, and RUN
cleared: 42_encoder.md R175. -/
def execRun (n : Nat) (s : State) : Result :=
  match s.mode with
  | .enc => .next (emitRun n s)
  | .dec => oldPixel n s.prev s

end Sys2Proof.Machine
end

