-- ==== Sys2Proof/Machine/Flags.lean ====
section
/-! DEFINITION. The machine has no condition flags (10_state.md R34). What stands in their place is
computed and consumed within one encode step: the signed differences and the range tests of the opcode
selector (42_encoder.md R168 to R171). -/

namespace Sys2Proof.Machine

/-- `s8(x)`: the 8-bit two's complement reading of `x mod 256` (00_scope.md R15). -/
def s8 (x : Int) : Int := if x % 256 ≤ 127 then x % 256 else x % 256 - 256

/-- The four differences of a pixel against PREV. -/
structure Diffs where
  dr : Int
  dg : Int
  db : Int
  da : Int
  deriving DecidableEq, Repr

/-- `diffs(PX, PREV)` (42_encoder.md R168). -/
def diffs (px prev : Pixel) : Diffs where
  dr := s8 ((px.r.toNat : Int) - prev.r.toNat)
  dg := s8 ((px.g.toNat : Int) - prev.g.toNat)
  db := s8 ((px.b.toNat : Int) - prev.b.toNat)
  da := s8 ((px.a.toNat : Int) - prev.a.toNat)

/-- The range test of step 6 (42_encoder.md R170). -/
def fitsDiff (d : Diffs) : Bool :=
  decide ((-2 ≤ d.dr ∧ d.dr ≤ 1) ∧ (-2 ≤ d.dg ∧ d.dg ≤ 1) ∧ (-2 ≤ d.db ∧ d.db ≤ 1))

/-- The range test of step 7 (42_encoder.md R171); the two inner subtractions are not wrapped. -/
def fitsLuma (d : Diffs) : Bool :=
  decide ((-32 ≤ d.dg ∧ d.dg ≤ 31) ∧ (-8 ≤ d.dr - d.dg ∧ d.dr - d.dg ≤ 7) ∧
    (-8 ≤ d.db - d.dg ∧ d.db - d.dg ≤ 7))

end Sys2Proof.Machine
end

