-- ==== Sys2Proof/Machine/Encoder.lean ====
section
/-! DEFINITION. The encoder's pass (42_encoder.md R160 to R176): one step resolves one pixel, and every
byte it appends is the emission of an instruction, in strict priority order (R174). -/

namespace Sys2Proof.Machine

/-- One more pixel is in the open run (R162). -/
def countPixel (s : State) : State := { s with run := s.run + 1 }

/-- The pixel is resolved: PREV is the pixel (R176). -/
def settlePixel (s : State) : State := { s with prev := s.px }

/-- Step 1 (R162, R163, R165): the pixel equals PREV, the run counter goes up, and the run is flushed when
it reaches 62 or the input is exhausted. RP already stands behind the pixel. -/
def continueRun (s : State) : Result :=
  let s := countPixel s
  if s.run = Config.runMax ∨ s.rp = s.srcLen then exec (.run s.run.toNat) s else .next s

/-- Step 2 (R164): an open run is flushed before a differing pixel. -/
def flushRun (s : State) : Result :=
  if s.run = 0 then .next s else exec (.run s.run.toNat) s

/-- Steps 5 to 8 (R169 to R172): the opcode of a pixel that missed the cache. -/
def missOpcode (px prev : Pixel) : Instr :=
  let d := diffs px prev
  if d.da ≠ 0 then .rgba px.r px.g px.b px.a
  else if fitsDiff d then .diff d.dr d.dg d.db
  else if fitsLuma d then .luma d.dg (d.dr - d.dg) (d.db - d.dg)
  else .rgb px.r px.g px.b

/-- Steps 3 to 8 (R166, R167): INDEX on a hit, which leaves CACHE alone; else the pixel is inserted, before
the opcode is chosen and whichever it is. -/
def codePixel (s : State) : Result :=
  if lookup (hashSlot s.px) s = s.px then exec (.index (hashSlot s.px)) s
  else exec (missOpcode s.px s.prev) (insertPixel s.px s)

/-- The step after its pixel is read: run continuation or a differing pixel, then the update of PREV on
every path (R160, R176). -/
def resolvePixel (s : State) : Result :=
  andThen (if s.px = s.prev then continueRun s else andThen (flushRun s) codePixel) fun s =>
    .next (settlePixel s)

/-- `step_enc` (R160). -/
def stepEnc (s : State) : Result := andThen (readPixel s) resolvePixel

end Sys2Proof.Machine
end

