-- ==== Sys2Proof/Machine/Streamer.lean ====
section
/-! DEFINITION. The byte streamer: the sequencing of an encode call and a decode call
(44_byte_streamer.md R245, R246), the moves of the host between calls (R240 to R244), and what the host
reads (10_state.md R38). -/

namespace Sys2Proof.Machine

/-- Phase E_CHECK, then E_HDR (44_byte_streamer.md R245; 60_exceptions.md R274, R275, R277): CHANNELS
first, then the size as a product of natural numbers, then the 14 header bytes. -/
def beginEncode (s : State) : Result :=
  if ¬channelsDefined s then .next (raise .invalidChannels s)
  else if s.srcLen ≠ s.width.toNat * s.height.toNat * s.channels.toNat then .next (raise .sizeMismatch s)
  else exec (.hdr s.width s.height s.channels s.colorspace) s

/-- One move of an encode call. SNK_LEN is 0 exactly before the header is appended (log 12); then one
pixel a step while RP is less than SRC_LEN, then the trailer. -/
def encodeMove (s : State) : Result :=
  if s.snkLen = 0 then beginEncode s
  else if s.rp < s.srcLen then stepEnc s
  else exec .endMarker s

/-- One move of a decode call (44_byte_streamer.md R246; 43_decoder.md R200): the instruction at RP is
executed, or what stands there is the failure of that name. -/
def decodeMove (s : State) : Result :=
  match decode (position s) (window s) with
  | .ok (i, _) => exec i s
  | .error e => .next (raise (Reject.failure e) s)

/-- One move of the host, where it has one to make; else the block stays quiescent
(44_byte_streamer.md R244, R249). The moves come in any order: a `start` that breaks
70_reset_and_hazards.md R314, before MODE or the descriptor is written, has no result in the spec, and
the model runs the call on what the registers hold (DESIGN CHOICE, log 25). -/
def quiescentMove (s : State) : Result :=
  match s.host with
  | [] => .next s
  | m :: ms => .next (hostMove m { s with host := ms })

/-- One step: the block's while a call runs, the host's otherwise (R244). -/
def move (s : State) : Result :=
  match s.status with
  | .running =>
    match s.mode with
    | .enc => encodeMove s
    | .dec => decodeMove s
  | .idle | .done | .failed => quiescentMove s

/-! ## What the host reads -/

/-- WIDTH, HEIGHT, CHANNELS and COLORSPACE hold the values of a parsed header or of the completed call: a call
has completed (10_state.md R36), or a decode call is behind its header. -/
abbrev descriptorLoaded (s : State) : Prop :=
  s.status = .done ∨ (s.status = .running ∧ s.mode = .dec ∧ s.rp ≠ 0)

/-- The reading of a descriptor register: none where it is withheld and no call has loaded it, that is between
the `start` of a decode call and its header (10_state.md R42), and from the failure of a decode call until
the host writes it (60_exceptions.md R280), whatever MODE, STATE and ERR are by then. -/
def readDescriptor {α : Type} (withheld : Bool) (value : α) (s : State) : Option α :=
  if withheld = true ∧ ¬descriptorLoaded s then none else some value

/-- What the host can read in a state: every register of 10_state.md but PREV, PX, CACHE, RUN and RP
(R38), and the sink. -/
structure HostReadings where
  mode : Mode
  width : Option Word32
  height : Option Word32
  channels : Option Byte
  colorspace : Option Byte
  srcLen : Nat
  snkLen : Nat
  status : Status
  /-- The code of ERR, 0 outside FAILED (R37). -/
  err : BitVec 3
  /-- None while a call runs: the sink is provisional then (44_byte_streamer.md R248). -/
  sink : Option (List Byte)
  deriving DecidableEq, Repr

/-- The host's readings of a state, at any time (10_state.md R38, 44_byte_streamer.md R244). -/
def hostReadings (s : State) : HostReadings where
  mode := s.mode
  width := readDescriptor s.withheld.width s.width s
  height := readDescriptor s.withheld.height s.height s
  channels := readDescriptor s.withheld.channels s.channels s
  colorspace := readDescriptor s.withheld.colorspace s.colorspace s
  srcLen := s.srcLen
  snkLen := s.snkLen
  status := s.status
  err := errCode s.err
  sink := if s.status = .running then none else some s.snk

/-- What of the readings is a result (44_byte_streamer.md R250, 60_exceptions.md R280): the code of a failure
and nothing else of a failed call, and the descriptor and the sink of a completed one. Which of the two
functions a completed call was the host knows from having made it; in DONE no register tells it, and the
view does not say it, so a MODE rewritten there changes nothing here (log 26). -/
inductive HostView where
  | idle
  | running
  | done (w h : Word32) (c cs : Byte) (sink : List Byte)
  | failed (code : BitVec 3)
  deriving DecidableEq, Repr

/-- The result the host reads in a state. -/
def hostView (s : State) : HostView :=
  match s.status with
  | .idle => .idle
  | .running => .running
  | .failed => .failed (errCode s.err)
  | .done => .done s.width s.height s.channels s.colorspace s.snk

end Sys2Proof.Machine
end

