-- ==== Sys2Proof/Machine/Step.lean ====
section
/-! DEFINITION. One step of the machine, and how a word of the opcode table comes to be its next
instruction. -/

namespace Sys2Proof.Machine

/-- One step: a move of the block in RUNNING, a move of the host otherwise (44_byte_streamer.md R244). -/
def step (s : State) : Host.Outcome State Fault Refusal := move s

/-- `s` in a running decode call whose next instruction is the table's word: HDR at offset 0, everything
else at an opcode boundary behind a parsed header, whose CHANNELS byte is taken to be 4 where the
register holds neither 3 nor 4 (log 18). -/
def State.withFetchWord (s : State) (nbits w : Nat) : State :=
  match tablePosition nbits w with
  | .first =>
    { s with
      status := .running
      mode := .dec
      rp := 0
      srcLen := max s.srcLen Config.minStream
      src := s.src.writeList 0 (tableBytes nbits w) }
  | .boundary =>
    { s with
      status := .running
      mode := .dec
      rp := max s.rp Config.headerLength
      srcLen := max s.srcLen (max s.rp Config.headerLength + Config.minStream)
      src := s.src.writeList (max s.rp Config.headerLength) (tableBytes nbits w)
      channels := if channelsDefined s then s.channels else 4 }

end Sys2Proof.Machine
end

