-- ==== Sys2Proof/Safety.lean ====
section
/-! DEFINITION. The terms claims use: the invariant of 10_state.md R44 with the bookkeeping it needs, and a
call as one state from which the machine runs to a result (44_byte_streamer.md R250). -/

namespace Sys2Proof.Machine

/-- What every state from which the machine goes on satisfies. The letters are those of 10_state.md R44. -/
structure Inv (s : State) : Prop where
  /-- SRC is in canonical form. -/
  srcWf : s.src.wf = true
  /-- SRC holds nothing at or above SRC_LEN. -/
  srcBelow : s.src.below s.srcLen = true
  /-- SNK_LEN counts the bytes of the sink (R27). -/
  snkLen_eq : s.snkLen = s.snk.length
  /-- ERR is 0 exactly when STATE is not FAILED (R37). -/
  err_iff : s.err ≠ none ↔ s.status = .failed
  /-- A failed call leaves no bytes (60_exceptions.md R280). -/
  failedEmpty : s.status = .failed → s.snkLen = 0
  /-- (a) -/
  rp_le : s.status = .running → s.rp ≤ s.srcLen
  /-- (b) -/
  run_le : s.run.toNat ≤ 61
  /-- (b), and the encoder's pass ends with no open run (42_encoder.md R165). -/
  run_zero : s.status ≠ .running ∨ s.mode = .dec → s.run = 0
  /-- A decode call has withheld the descriptor from the host (60_exceptions.md R280). -/
  decWithheld : s.status = .running → s.mode = .dec → s.withheld = .all
  /-- (c) -/
  encAlpha : s.status = .running → s.mode = .enc → s.channels = 3 →
    s.prev.a = 255 ∧ ∀ i, lookup i s = Pixel.zero ∨ (lookup i s).a = 255
  /-- (d) -/
  cacheHash : ∀ i, lookup i s = Pixel.zero ∨ hashSlot (lookup i s) = i
  /-- (e) -/
  encPrev : s.status = .running → s.mode = .enc →
    lookup (hashSlot s.prev) s = s.prev ∨ (s.prev = Pixel.opaqueBlack ∧ lookup 53 s = Pixel.zero)
  /-- (f), with offset 0 before the header is parsed, when nothing has been written. -/
  decRp : s.status = .running → s.mode = .dec → (s.rp = 0 ∧ s.snkLen = 0) ∨ Config.headerLength ≤ s.rp
  /-- Before its header an encode call has read nothing. -/
  encBegin : s.status = .running → s.mode = .enc → s.snkLen = 0 → s.rp = 0 ∧ s.run = 0
  /-- Behind its header an encode call has passed its checks (60_exceptions.md R274, R275) and stands at a
  pixel chunk (20_memory.md R66). -/
  encBody : s.status = .running → s.mode = .enc → s.snkLen ≠ 0 →
    channelsDefined s ∧ s.srcLen = s.width.toNat * s.height.toNat * s.channels.toNat ∧
      s.channels.toNat ∣ s.rp
  /-- When the input is exhausted no run is open (42_encoder.md R165). -/
  encEnd : s.status = .running → s.mode = .enc → s.rp = s.srcLen → s.run = 0

/-- The block is running an encode call. -/
abbrev encoding (s : State) : Prop := s.status = .running ∧ s.mode = .enc

/-- The block is running a decode call. -/
abbrev decoding (s : State) : Prop := s.status = .running ∧ s.mode = .dec

/-- One of the six opcodes, not a pseudo-instruction (30_encoding.md R102). -/
abbrev isOpcode (i : Instr) : Prop := i.position = .boundary ∧ i ≠ .endMarker

/-- An encode call stands in its body with a whole pixel chunk in front of it (42_encoder.md R160). -/
abbrev atPixel (s : State) : Prop :=
  encoding s ∧ s.snkLen ≠ 0 ∧ channelsDefined s ∧ s.rp + s.channels.toNat ≤ s.srcLen

/-- The pixel whose chunk lies at RP (42_encoder.md R161). -/
def nextPixel (s : State) : Pixel :=
  ⟨s.src.read s.rp, s.src.read (s.rp + 1), s.src.read (s.rp + 2),
    if s.channels = 4 then s.src.read (s.rp + 3) else 255⟩

/-- RP behind the pixel chunk that lies at RP. -/
def behindPixel (s : State) : Nat := s.rp + s.channels.toNat

/-- The bytes of a pixel in a buffer of three or four channels (20_memory.md R61). -/
def chunkBytes (channels : Byte) (p : Pixel) : List Byte :=
  if channels = 4 then [p.r, p.g, p.b, p.a] else [p.r, p.g, p.b]

/-- What is emitted before a differing pixel (42_encoder.md R164): the byte of the open run, if there is
one. -/
def runBytes (s : State) : List Byte := if s.run = 0 then [] else [0xc0 ||| (s.run - 1).setWidth 8]

/-- `s8` of the difference of two channels (42_encoder.md R168). -/
def channelDiff (new old : Byte) : Int := s8 ((new.toNat : Int) - old.toNat)

/-- An encode call just started on a pixel buffer, with no further move of the host to come
(44_byte_streamer.md R240, R241, R245). -/
def encodeCall (w h : Word32) (c cs : Byte) (pixels : List Byte) (s : State) : State :=
  start { s with
    mode := .enc
    width := w
    height := h
    channels := c
    colorspace := cs
    src := Memory.ofList 0 pixels
    srcLen := pixels.length
    host := [] }

/-- A decode call just started on a stream, with no further move of the host to come (R246). -/
def decodeCall (stream : List Byte) (s : State) : State :=
  start { s with
    mode := .dec
    src := Memory.ofList 0 stream
    srcLen := stream.length
    host := [] }

/-- What the host sees of an outcome. -/
def outcomeView (o : Result) : Host.Outcome HostView Fault Refusal :=
  match o with
  | .next s => .next (hostView s)
  | .fault r => .fault r
  | .refused r => .refused r

end Sys2Proof.Machine
end

