-- ==== Sys2Proof/Certificates/Slice0/Obligations.lean ====
section
/-! DEFINITION. The statements about QOI-CORE that are to be proved. -/

open Sys2Proof Sys2Proof.Machine

/-! ## Encoding -/

/-- Words written out from the field layouts of 30_encoding.md R93 to R98, R106 and R107 decode to the
instructions they stand for. The order r, g, b, a of RGBA's four raw bytes is not stated by R98: the spec
infers it (93_implementation_defined.md G2) and the model presumes it (log 17). -/
def Obligations.KnownWordsDecode : Prop :=
  decode .boundary [0xfe, 0xc8, 0x14, 0x1e, 0, 0, 0, 0] = .ok (.rgb 200 20 30, [0, 0, 0, 0]) ∧
  decode .boundary [0xff, 0x0a, 0x14, 0x1e, 0x80, 0, 0, 0] = .ok (.rgba 10 20 30 128, [0, 0, 0]) ∧
  decode .boundary [0x25, 0, 0, 0, 0, 0, 0, 0] = .ok (.index 37, [0, 0, 0, 0, 0, 0, 0]) ∧
  decode .boundary [0x73, 0, 0, 0, 0, 0, 0, 0] = .ok (.diff 1 (-2) 1, [0, 0, 0, 0, 0, 0, 0]) ∧
  decode .boundary [0xaa, 0xd3, 0, 0, 0, 0, 0, 0] = .ok (.luma 10 5 (-5), [0, 0, 0, 0, 0, 0]) ∧
  decode .boundary [0xfd, 0, 0, 0, 0, 0, 0, 0] = .ok (.run 62, [0, 0, 0, 0, 0, 0, 0]) ∧
  decode .boundary [0, 0, 0, 0, 0, 0, 0, 1, 9] = .ok (.endMarker, [9]) ∧
  decode .first [0x71, 0x6f, 0x69, 0x66, 0, 0, 1, 2, 0, 0, 0, 1, 3, 7, 0, 0, 0, 0, 0, 0, 0, 1] =
    .ok (.hdr 258 1 3 7, [0, 0, 0, 0, 0, 0, 0, 1])

/-- Decoding the encoding of any well-formed instruction, with enough bytes behind it, gives it back with
every operand. An opcode needs 8 bytes at its boundary that are not the trailer (43_decoder.md R200), HDR
the length of the shortest stream (40_header_trailer.md R122). -/
def Obligations.DecodeOfEncodeIsTheInstruction : Prop :=
  ∀ (i : Instr) (rest : List Byte), i.WellFormed →
    (i.position = .first → 8 ≤ rest.length) →
    (isOpcode i → 8 ≤ (encode i ++ rest).length ∧ (encode i ++ rest).take 8 ≠ Config.trailer) →
    decode i.position (encode i ++ rest) = .ok (i, rest)

/-- Whatever the decoder reads is well formed, belongs at that position, and its encoding is the bytes it
was read from: each sequence of bytes has one reading (30_encoding.md R109). -/
def Obligations.DecodedBytesAreTheEncoding : Prop :=
  ∀ (p : Position) (bytes rest : List Byte) (i : Instr), decode p bytes = .ok (i, rest) →
    i.WellFormed ∧ i.position = p ∧ bytes = encode i ++ rest

/-- 30_encoding.md R102, with the lengths of R99: every tag byte selects an opcode, by the ranges of the
table, and consumes as many bytes as the tag alone says. -/
def Obligations.EveryTagSelectsAnOpcode : Prop :=
  ∀ (t : Byte) (rest : List Byte), 8 ≤ (t :: rest).length → (t :: rest).take 8 ≠ Config.trailer →
    ∃ i, decode .boundary (t :: rest) = .ok (i, (t :: rest).drop i.length) ∧
      (t.toNat < 0x40 → i = .index (t.extractLsb' 0 6).toFin ∧ i.length = 1) ∧
      (0x40 ≤ t.toNat ∧ t.toNat < 0x80 → (∃ dr dg db, i = .diff dr dg db) ∧ i.length = 1) ∧
      (0x80 ≤ t.toNat ∧ t.toNat < 0xc0 → (∃ dg drg dbg, i = .luma dg drg dbg) ∧ i.length = 2) ∧
      (0xc0 ≤ t.toNat ∧ t.toNat < 0xfe → i = .run (t.toNat - 0xc0 + 1) ∧ i.length = 1) ∧
      (t.toNat = 0xfe → (∃ r g b, i = .rgb r g b) ∧ i.length = 4) ∧
      (t.toNat = 0xff → (∃ r g b a, i = .rgba r g b a) ∧ i.length = 5)

/-- The decoder rejects for the three reasons the spec names and no other, the length before the magic
(40_header_trailer.md R122; 43_decoder.md R200; 60_exceptions.md R271 to R273). -/
def Obligations.DecoderRejectsOnlyByItsThreeNames : Prop :=
  ∀ (bytes : List Byte),
    (∀ e, decode .first bytes = .error e ↔
      (e = .tooShort ∧ bytes.length < 22) ∨
      (e = .badMagic ∧ 22 ≤ bytes.length ∧ bytes.take 4 ≠ [0x71, 0x6f, 0x69, 0x66])) ∧
    (∀ e, decode .boundary bytes = .error e ↔ e = .missingEndMarker ∧ bytes.length < 8)

/-! ## One step of a decode call -/

/-- A step of a decode call runs the instruction that stands at RP. -/
def Obligations.StepRunsDecodedInstruction : Prop :=
  ∀ (s : State) (i : Instr) (rest : List Byte), decoding s →
    decode (if s.rp = 0 then .first else .boundary) (s.src.slice s.rp (min 22 (s.srcLen - s.rp))) =
      .ok (i, rest) →
    step s = exec i s

/-- 60_exceptions.md R280: a failure of a decode call stops it at once, records its code and nothing else,
and leaves no output; here for each of the three codes of R270 a decode call can end with. That WIDTH, HEIGHT,
CHANNELS and COLORSPACE keep what they held is the model's choice (log 24): R280 and
93_implementation_defined.md U7 allow any value there. -/
def Obligations.DecodeFailureEndsTheCall : Prop :=
  ∀ (s : State) (e : Reject), decoding s →
    decode (if s.rp = 0 then .first else .boundary) (s.src.slice s.rp (min 22 (s.srcLen - s.rp))) = .error e →
    ∃ f, step s = .next { s with err := some f, snk := [], snkLen := 0, status := .failed } ∧
      errCode (some f) = (match e with | .tooShort => 1 | .badMagic => 2 | .missingEndMarker => 3)

/-- 60_exceptions.md R271: a decode call fails with TooShort exactly when the stream is shorter than 22 bytes,
whatever its bytes are, and it is the first check. -/
def Obligations.ShortStreamIsTooShort : Prop :=
  ∀ (stream : List Byte) (s : State),
    ∃ t, step (decodeCall stream s) = .next t ∧ (hostView t = .failed 1 ↔ stream.length < 22)

/-- 60_exceptions.md R272: a decode call fails with BadMagic exactly when the stream has 22 bytes or more and
its first four bytes are not the magic. -/
def Obligations.WrongMagicIsBadMagic : Prop :=
  ∀ (stream : List Byte) (s : State),
    ∃ t, step (decodeCall stream s) = .next t ∧
      (hostView t = .failed 2 ↔ 22 ≤ stream.length ∧ stream.take 4 ≠ [0x71, 0x6f, 0x69, 0x66])

/-- 60_exceptions.md R273: at an opcode boundary a decode call fails with MissingEndMarker exactly when fewer
than 8 bytes remain, whatever they are; what it had written is discarded. -/
def Obligations.ShortTailIsMissingEndMarker : Prop :=
  ∀ (s : State), decoding s → s.rp ≠ 0 →
    ((∃ t, step s = .next t ∧ hostView t = .failed 3) ↔ s.srcLen - s.rp < 8) ∧
    ∀ t, step s = .next t → hostView t = .failed 3 → t.snkLen = 0 ∧ t.snk = []

/-! ## The decoded instructions -/

/-- 43_decoder.md R210: the bytes, and the step. (PX, which 10_state.md R23 lets a model leave out, is left
open here and below.) -/
def Obligations.DecodedRgb : Prop :=
  (∀ (r g b : Byte) (rest : List Byte), 4 ≤ rest.length →
    decode .boundary (0xfe :: r :: g :: b :: rest) = .ok (.rgb r g b, rest)) ∧
  ∀ (r g b : Byte) (s : State), s.mode = .dec → channelsDefined s →
    let p : Pixel := ⟨r, g, b, s.prev.a⟩
    ∃ q, exec (.rgb r g b) s = .next { s with
      px := q
      prev := p
      rp := s.rp + 4
      cache := s.cache.set (hashSlot p) p
      snk := s.snk ++ chunkBytes s.channels p
      snkLen := s.snkLen + s.channels.toNat }

/-- 43_decoder.md R211: the bytes, and the step; the fourth byte is PREV's alpha whatever CHANNELS is. That the
four raw bytes are r, g, b, a in this order is the spec's inference (93_implementation_defined.md G2), which
the model presumes (log 17). -/
def Obligations.DecodedRgba : Prop :=
  (∀ (r g b a : Byte) (rest : List Byte), 3 ≤ rest.length →
    decode .boundary (0xff :: r :: g :: b :: a :: rest) = .ok (.rgba r g b a, rest)) ∧
  ∀ (r g b a : Byte) (s : State), s.mode = .dec → channelsDefined s →
    let p : Pixel := ⟨r, g, b, a⟩
    ∃ q, exec (.rgba r g b a) s = .next { s with
      px := q
      prev := p
      rp := s.rp + 5
      cache := s.cache.set (hashSlot p) p
      snk := s.snk ++ chunkBytes s.channels p
      snkLen := s.snkLen + s.channels.toNat }

/-- 43_decoder.md R205: the field, and the step; PREV becomes the slot's pixel, alpha included, and CACHE is
not written. -/
def Obligations.DecodedIndex : Prop :=
  (∀ (t : Byte) (rest : List Byte), 8 ≤ (t :: rest).length → (t :: rest).take 8 ≠ Config.trailer →
    t.extractLsb' 6 2 = 0b00 → ∃ k : Fin 64, k.val = (t &&& 0x3f).toNat ∧
      decode .boundary (t :: rest) = .ok (.index k, rest)) ∧
  ∀ (k : Fin 64) (s : State), s.mode = .dec → channelsDefined s →
    let p : Pixel := s.cache[k]
    ∃ q, exec (.index k) s = .next { s with
      px := q
      prev := p
      rp := s.rp + 1
      snk := s.snk ++ chunkBytes s.channels p
      snkLen := s.snkLen + s.channels.toNat }

/-- 43_decoder.md R206, with the addition of R209: the fields, and the step. -/
def Obligations.DecodedDiff : Prop :=
  (∀ (t : Byte) (rest : List Byte), 8 ≤ (t :: rest).length → t.extractLsb' 6 2 = 0b01 →
    decode .boundary (t :: rest) = .ok (.diff ((t.extractLsb' 4 2).toNat - 2) ((t.extractLsb' 2 2).toNat - 2)
      ((t.extractLsb' 0 2).toNat - 2), rest)) ∧
  ∀ (dr dg db : Int) (s : State), s.mode = .dec → channelsDefined s →
    let p : Pixel := ⟨BitVec.ofInt 8 (s.prev.r.toNat + dr), BitVec.ofInt 8 (s.prev.g.toNat + dg),
      BitVec.ofInt 8 (s.prev.b.toNat + db), s.prev.a⟩
    ∃ q, exec (.diff dr dg db) s = .next { s with
      px := q
      prev := p
      rp := s.rp + 1
      cache := s.cache.set (hashSlot p) p
      snk := s.snk ++ chunkBytes s.channels p
      snkLen := s.snkLen + s.channels.toNat }

/-- 43_decoder.md R207, with the addition of R209: the fields, and the step. -/
def Obligations.DecodedLuma : Prop :=
  (∀ (t u : Byte) (rest : List Byte), 8 ≤ (t :: u :: rest).length → t.extractLsb' 6 2 = 0b10 →
    decode .boundary (t :: u :: rest) = .ok (.luma ((t.extractLsb' 0 6).toNat - 32) ((u.extractLsb' 4 4).toNat - 8)
      ((u.extractLsb' 0 4).toNat - 8), rest)) ∧
  ∀ (dg drg dbg : Int) (s : State), s.mode = .dec → channelsDefined s →
    let p : Pixel := ⟨BitVec.ofInt 8 (s.prev.r.toNat + (dg + drg)), BitVec.ofInt 8 (s.prev.g.toNat + dg),
      BitVec.ofInt 8 (s.prev.b.toNat + (dg + dbg)), s.prev.a⟩
    ∃ q, exec (.luma dg drg dbg) s = .next { s with
      px := q
      prev := p
      rp := s.rp + 2
      cache := s.cache.set (hashSlot p) p
      snk := s.snk ++ chunkBytes s.channels p
      snkLen := s.snkLen + s.channels.toNat }

/-- 43_decoder.md R208: the field, and the step; PREV and CACHE are not written, and all copies are appended in
the one step. -/
def Obligations.DecodedRun : Prop :=
  (∀ (t : Byte) (rest : List Byte), 8 ≤ (t :: rest).length → 0xc0 ≤ t.toNat → t.toNat ≤ 0xfd →
    decode .boundary (t :: rest) = .ok (.run ((t &&& 0x3f).toNat + 1), rest)) ∧
  ∀ (n : Nat) (s : State), s.mode = .dec → channelsDefined s →
    ∃ q, exec (.run n) s = .next { s with
      px := q
      rp := s.rp + 1
      snk := s.snk ++ (List.replicate n (chunkBytes s.channels s.prev)).flatten
      snkLen := s.snkLen + n * s.channels.toNat }

/-- 40_header_trailer.md R124: the fields, and the step; CHANNELS is stored unchecked and RP is 14. -/
def Obligations.DecodedHeader : Prop :=
  (∀ (w0 w1 w2 w3 h0 h1 h2 h3 c cs : Byte) (rest : List Byte), 8 ≤ rest.length →
    decode .first ([0x71, 0x6f, 0x69, 0x66, w0, w1, w2, w3, h0, h1, h2, h3, c, cs] ++ rest) = .ok (.hdr
      (BitVec.ofNat 32 (w0.toNat * 2 ^ 24 + w1.toNat * 2 ^ 16 + w2.toNat * 2 ^ 8 + w3.toNat))
      (BitVec.ofNat 32 (h0.toNat * 2 ^ 24 + h1.toNat * 2 ^ 16 + h2.toNat * 2 ^ 8 + h3.toNat)) c cs, rest)) ∧
  ∀ (w h : Word32) (c cs : Byte) (s : State), s.mode = .dec →
    exec (.hdr w h c cs) s = .next { s with width := w, height := h, channels := c, colorspace := cs, rp := 14 }

/-- 40_header_trailer.md R127: the predicate, and the step; the call ends with success and RP stays. -/
def Obligations.DecodedEnd : Prop :=
  (∀ (bytes : List Byte), (∃ rest, decode .boundary bytes = .ok (.endMarker, rest)) ↔
    8 ≤ bytes.length ∧ bytes.take 8 = [0, 0, 0, 0, 0, 0, 0, 1]) ∧
  ∀ (s : State), s.mode = .dec → channelsDefined s → exec .endMarker s = .next { s with status := .done }

/-- What a decoded opcode leaves unchanged, in every setting of DEC_BAD_CHANNELS: everything but PREV, PX,
RP, the sink and, for the opcodes that stand for a new pixel, the slot at its hash (41_running_cache.md
R145); every byte of SRC; every byte already in the sink; alpha but for RGBA and INDEX (43_decoder.md
R212). -/
def Obligations.DecodedOpcodeFrame : Prop :=
  ∀ (i : Instr) (s t : State), isOpcode i → i.WellFormed → s.mode = .dec → exec i s = .next t →
    t.run = s.run ∧ t.mode = s.mode ∧ t.width = s.width ∧ t.height = s.height ∧ t.channels = s.channels ∧
    t.colorspace = s.colorspace ∧ t.srcLen = s.srcLen ∧ t.status = s.status ∧ t.err = s.err ∧
    t.decBadChannels = s.decBadChannels ∧ t.host = s.host ∧ t.withheld = s.withheld ∧
    (∀ a, t.src.read a = s.src.read a) ∧
    (∀ a, a < s.snk.length → t.snk[a]? = s.snk[a]?) ∧
    t.rp = s.rp + i.length ∧
    (∀ n, i = .run n → t.prev = s.prev) ∧
    ((∃ n, i = .run n) ∨ (∃ k, i = .index k) → t.cache = s.cache) ∧
    (∀ k, k ≠ hashSlot t.prev → t.cache[k] = s.cache[k]) ∧
    ((¬∃ r g b a, i = .rgba r g b a) → (¬∃ k, i = .index k) → t.prev.a = s.prev.a)

/-- What the header parse and the end of a decode call leave unchanged. -/
def Obligations.DecodedHeaderAndEndFrame : Prop :=
  ∀ (i : Instr) (s t : State), ¬isOpcode i → s.mode = .dec → exec i s = .next t →
    t.prev = s.prev ∧ t.px = s.px ∧ t.cache = s.cache ∧ t.run = s.run ∧ t.snk = s.snk ∧ t.snkLen = s.snkLen ∧
    t.mode = s.mode ∧ t.srcLen = s.srcLen ∧ t.err = s.err ∧ t.decBadChannels = s.decBadChannels ∧
    t.host = s.host ∧ t.withheld = s.withheld ∧ (∀ a, t.src.read a = s.src.read a) ∧
    (i ≠ .endMarker → t.status = s.status) ∧
    (i = .endMarker → t.rp = s.rp ∧ t.width = s.width ∧ t.height = s.height ∧ t.channels = s.channels ∧
      t.colorspace = s.colorspace)

/-! ## DEC_BAD_CHANNELS -/

/-- 43_decoder.md R214 under the default `refuse`: with a CHANNELS byte other than 3 and 4 every opcode and
the trailer are refused, so the call gets no result and no failure. -/
def Obligations.BadChannelsAreRefusedByDefault : Prop :=
  ∀ (i : Instr) (s : State), i.position = .boundary → i.WellFormed → s.mode = .dec → ¬channelsDefined s →
    s.decBadChannels = .refuse → exec i s = .refused .decBadChannels

/-- 93_implementation_defined.md U1 under `as4`: any value other than 3 behaves as 4 does. -/
def Obligations.BadChannelsAsFour : Prop :=
  ∀ (i : Instr) (s t : State), i.position = .boundary → s.mode = .dec → ¬channelsDefined s →
    s.decBadChannels = .as4 → exec i { s with channels := 4 } = .next t →
    exec i s = .next { t with channels := s.channels }

/-- 93_implementation_defined.md U1 under `fault` (the model's choice of where, log 8): opcodes run and
write nothing, and the trailer ends the machine in the fault of that name. -/
def Obligations.BadChannelsFaultAtTheTrailer : Prop :=
  ∀ (s : State), s.mode = .dec → ¬channelsDefined s → s.decBadChannels = .fault →
    exec .endMarker s = .fault .decBadChannels ∧
    ∀ i, isOpcode i → ∃ t, exec i s = .next t ∧ t.snk = s.snk ∧ t.snkLen = s.snkLen

/-! ## The emitted instructions and the encode pass -/

/-- An instruction emitted in an encode call appends its bytes; RUN clears the counter (42_encoder.md
R175) and END ends the call (44_byte_streamer.md R245). Nothing else changes. -/
def Obligations.EmissionAppendsTheEncoding : Prop :=
  ∀ (i : Instr) (s : State), s.mode = .enc →
    exec i s = .next { s with
      snk := s.snk ++ encode i
      snkLen := s.snkLen + i.length
      run := (match i with | .run _ => 0 | _ => s.run)
      status := (match i with | .endMarker => .done | _ => s.status) }

/-- 60_exceptions.md R274: an encode call with CHANNELS neither 3 nor 4 fails first of all, with code 4. -/
def Obligations.InvalidChannelsFailsFirst : Prop :=
  ∀ (s : State), encoding s → s.snkLen = 0 → ¬channelsDefined s →
    ∃ f, errCode (some f) = 4 ∧
      step s = .next { s with err := some f, snk := [], snkLen := 0, status := .failed }

/-- 60_exceptions.md R275: then the buffer's length must be the product of natural numbers, with code 5. -/
def Obligations.SizeMismatchFailsNext : Prop :=
  ∀ (s : State), encoding s → s.snkLen = 0 → channelsDefined s →
    s.srcLen ≠ s.width.toNat * s.height.toNat * s.channels.toNat →
    ∃ f, errCode (some f) = 5 ∧
      step s = .next { s with err := some f, snk := [], snkLen := 0, status := .failed }

/-- 40_header_trailer.md R121: the 14 bytes, big-endian fields, are the first output of an encode call that
passes its checks. -/
def Obligations.HeaderIsSerialized : Prop :=
  ∀ (s : State), encoding s → s.snkLen = 0 → channelsDefined s →
    s.srcLen = s.width.toNat * s.height.toNat * s.channels.toNat →
    step s = .next { s with
      snk := s.snk ++ [0x71, 0x6f, 0x69, 0x66,
        BitVec.ofNat 8 (s.width.toNat / 2 ^ 24), BitVec.ofNat 8 (s.width.toNat / 2 ^ 16),
        BitVec.ofNat 8 (s.width.toNat / 2 ^ 8), BitVec.ofNat 8 s.width.toNat,
        BitVec.ofNat 8 (s.height.toNat / 2 ^ 24), BitVec.ofNat 8 (s.height.toNat / 2 ^ 16),
        BitVec.ofNat 8 (s.height.toNat / 2 ^ 8), BitVec.ofNat 8 s.height.toNat,
        s.channels, s.colorspace]
      snkLen := 14 }

/-- 42_encoder.md R162: a pixel equal to PREV is counted and nothing is emitted, unless R163 or R165
applies. -/
def Obligations.RunContinuesSilently : Prop :=
  ∀ (s : State), atPixel s → nextPixel s = s.prev → s.run + 1 ≠ 62 → behindPixel s ≠ s.srcLen →
    step s = .next { s with px := s.prev, rp := behindPixel s, run := s.run + 1 }

/-- 42_encoder.md R163, R165 and R175: the run is flushed in the step in which it reaches 62 or the input is
exhausted; the byte holds the run length minus one. -/
def Obligations.RunIsFlushed : Prop :=
  ∀ (s : State), atPixel s → nextPixel s = s.prev → s.run + 1 = 62 ∨ behindPixel s = s.srcLen →
    step s = .next { s with
      px := s.prev
      rp := behindPixel s
      run := 0
      snk := s.snk ++ [0xc0 ||| s.run.setWidth 8]
      snkLen := s.snkLen + 1 }

/-- 42_encoder.md R166, after the flush of R164: a differing pixel that its slot holds is INDEX, and CACHE is
not written. -/
def Obligations.CacheHitEmitsIndex : Prop :=
  ∀ (s : State), atPixel s → nextPixel s ≠ s.prev → s.cache[hashSlot (nextPixel s)] = nextPixel s →
    step s = .next { s with
      px := nextPixel s
      prev := nextPixel s
      rp := behindPixel s
      run := 0
      snk := s.snk ++ runBytes s ++ [BitVec.ofNat 8 (hashSlot (nextPixel s)).val]
      snkLen := s.snkLen + (runBytes s).length + 1 }

/-- 42_encoder.md R167 and R169: on a miss the pixel is inserted; where alpha changed it is RGBA. The order r,
g, b, a of the four raw bytes is the spec's inference (93_implementation_defined.md G2), which the model
presumes (log 17). -/
def Obligations.AlphaChangeEmitsRgba : Prop :=
  ∀ (s : State), atPixel s → nextPixel s ≠ s.prev → s.cache[hashSlot (nextPixel s)] ≠ nextPixel s →
    (nextPixel s).a ≠ s.prev.a →
    step s = .next { s with
      px := nextPixel s
      prev := nextPixel s
      rp := behindPixel s
      run := 0
      cache := s.cache.set (hashSlot (nextPixel s)) (nextPixel s)
      snk := s.snk ++ runBytes s ++
        [0xff, (nextPixel s).r, (nextPixel s).g, (nextPixel s).b, (nextPixel s).a]
      snkLen := s.snkLen + (runBytes s).length + 5 }

/-- 42_encoder.md R170: on a miss with alpha kept and the three wrapped differences within -2 to 1, DIFF. -/
def Obligations.SmallDifferenceEmitsDiff : Prop :=
  ∀ (s : State), atPixel s → nextPixel s ≠ s.prev → s.cache[hashSlot (nextPixel s)] ≠ nextPixel s →
    (nextPixel s).a = s.prev.a →
    let dr := channelDiff (nextPixel s).r s.prev.r
    let dg := channelDiff (nextPixel s).g s.prev.g
    let db := channelDiff (nextPixel s).b s.prev.b
    (-2 ≤ dr ∧ dr ≤ 1) ∧ (-2 ≤ dg ∧ dg ≤ 1) ∧ (-2 ≤ db ∧ db ≤ 1) →
    step s = .next { s with
      px := nextPixel s
      prev := nextPixel s
      rp := behindPixel s
      run := 0
      cache := s.cache.set (hashSlot (nextPixel s)) (nextPixel s)
      snk := s.snk ++ runBytes s ++ [BitVec.ofInt 8 (0x40 + 16 * (dr + 2) + 4 * (dg + 2) + (db + 2))]
      snkLen := s.snkLen + (runBytes s).length + 1 }

/-- 42_encoder.md R171: on a miss with alpha kept, where DIFF does not fit and the green difference and the
differences against it are in range, LUMA. -/
def Obligations.LumaDifferenceEmitsLuma : Prop :=
  ∀ (s : State), atPixel s → nextPixel s ≠ s.prev → s.cache[hashSlot (nextPixel s)] ≠ nextPixel s →
    (nextPixel s).a = s.prev.a →
    let dr := channelDiff (nextPixel s).r s.prev.r
    let dg := channelDiff (nextPixel s).g s.prev.g
    let db := channelDiff (nextPixel s).b s.prev.b
    ¬((-2 ≤ dr ∧ dr ≤ 1) ∧ (-2 ≤ dg ∧ dg ≤ 1) ∧ (-2 ≤ db ∧ db ≤ 1)) →
    (-32 ≤ dg ∧ dg ≤ 31) ∧ (-8 ≤ dr - dg ∧ dr - dg ≤ 7) ∧ (-8 ≤ db - dg ∧ db - dg ≤ 7) →
    step s = .next { s with
      px := nextPixel s
      prev := nextPixel s
      rp := behindPixel s
      run := 0
      cache := s.cache.set (hashSlot (nextPixel s)) (nextPixel s)
      snk := s.snk ++ runBytes s ++
        [BitVec.ofInt 8 (0x80 + (dg + 32)), BitVec.ofInt 8 (16 * (dr - dg + 8) + (db - dg + 8))]
      snkLen := s.snkLen + (runBytes s).length + 2 }

/-- 42_encoder.md R172: on a miss with alpha kept, where neither DIFF nor LUMA fits, RGB. -/
def Obligations.FallbackEmitsRgb : Prop :=
  ∀ (s : State), atPixel s → nextPixel s ≠ s.prev → s.cache[hashSlot (nextPixel s)] ≠ nextPixel s →
    (nextPixel s).a = s.prev.a →
    let dr := channelDiff (nextPixel s).r s.prev.r
    let dg := channelDiff (nextPixel s).g s.prev.g
    let db := channelDiff (nextPixel s).b s.prev.b
    ¬((-2 ≤ dr ∧ dr ≤ 1) ∧ (-2 ≤ dg ∧ dg ≤ 1) ∧ (-2 ≤ db ∧ db ≤ 1)) →
    ¬((-32 ≤ dg ∧ dg ≤ 31) ∧ (-8 ≤ dr - dg ∧ dr - dg ≤ 7) ∧ (-8 ≤ db - dg ∧ db - dg ≤ 7)) →
    step s = .next { s with
      px := nextPixel s
      prev := nextPixel s
      rp := behindPixel s
      run := 0
      cache := s.cache.set (hashSlot (nextPixel s)) (nextPixel s)
      snk := s.snk ++ runBytes s ++ [0xfe, (nextPixel s).r, (nextPixel s).g, (nextPixel s).b]
      snkLen := s.snkLen + (runBytes s).length + 4 }

/-- 40_header_trailer.md R126 and 44_byte_streamer.md R245: after the last pixel the 8 trailer bytes are
appended and the call is done. -/
def Obligations.TrailerEndsTheEncodeCall : Prop :=
  ∀ (s : State), encoding s → s.snkLen ≠ 0 → s.srcLen ≤ s.rp →
    step s = .next { s with
      snk := s.snk ++ [0, 0, 0, 0, 0, 0, 0, 1], snkLen := s.snkLen + 8, status := .done }

/-! ## The cache and the arithmetic -/

/-- 41_running_cache.md R143 and R144: an insert overwrites the slot at the pixel's hash and no other. -/
def Obligations.InsertWritesOneSlot : Prop :=
  ∀ (p : Pixel) (k : Fin 64) (s : State),
    lookup k (insertPixel p s) = (if k.val = (3 * p.r.toNat + 5 * p.g.toNat + 7 * p.b.toNat + 11 * p.a.toNat) % 64
      then p else lookup k s)

/-- 41_running_cache.md R140: the hash is the sum over natural numbers mod 64, and is the same when the sum is
taken, wrapping, in any width of 6 bits or more. -/
def Obligations.HashIsTheSumMod64 : Prop :=
  ∀ (p : Pixel),
    (hashSlot p).val = (p.r.toNat * 3 + p.g.toNat * 5 + p.b.toNat * 7 + p.a.toNat * 11) % 64 ∧
    ∀ (w : Nat), 6 ≤ w → (hashSlot p).val =
      (3 * p.r.setWidth w + 5 * p.g.setWidth w + 7 * p.b.setWidth w + 11 * p.a.setWidth w).toNat % 64

/-- 43_decoder.md R209: `add8` is addition mod 256, and adding the wrapped difference of two channels to the
first gives the second, the difference being a signed byte (00_scope.md R15). -/
def Obligations.AddingTheDifferenceRestoresTheChannel : Prop :=
  ∀ (c c' : Byte),
    (∀ d : Int, ((add8 c d).toNat : Int) = ((c.toNat : Int) + d) % 256) ∧
    (-128 ≤ s8 ((c'.toNat : Int) - c.toNat) ∧ s8 ((c'.toNat : Int) - c.toNat) ≤ 127) ∧
    add8 c (s8 ((c'.toNat : Int) - c.toNat)) = c'

/-- 41_running_cache.md R145, the complete list of cache writes: in an encode call a miss and nothing else, in a
decode call RGB, RGBA, DIFF and LUMA and nothing else, both with the pixel that is then in PREV; outside a
call `start`, which clears every slot, and nothing else. That a power-on reset is among the moves that leave
CACHE as it was is the model's choice (log 6): 10_state.md R43 leaves CACHE unspecified there. -/
def Obligations.CacheIsWrittenOnlyByNewPixels : Prop :=
  ∀ (s t : State), step s = .next t →
    (encoding s →
      (t.prev = s.prev ∨ s.cache[hashSlot t.prev] = t.prev → t.cache = s.cache) ∧
      (t.prev ≠ s.prev → s.cache[hashSlot t.prev] ≠ t.prev →
        t.cache = s.cache.set (hashSlot t.prev) t.prev)) ∧
    (decoding s → ∀ r,
      decode (if s.rp = 0 then .first else .boundary) (s.src.slice s.rp (min 22 (s.srcLen - s.rp))) = r →
      (∀ i rest, r = .ok (i, rest) → (∃ r g b, i = .rgb r g b) ∨ (∃ r g b a, i = .rgba r g b a) ∨
          (∃ dr dg db, i = .diff dr dg db) ∨ (∃ dg drg dbg, i = .luma dg drg dbg) →
        t.cache = s.cache.set (hashSlot t.prev) t.prev) ∧
      (∀ i rest, r = .ok (i, rest) → (∃ n, i = .run n) ∨ (∃ k, i = .index k) ∨ ¬isOpcode i →
        t.cache = s.cache) ∧
      (∀ e, r = .error e → t.cache = s.cache)) ∧
    (s.status ≠ .running →
      ((∃ ms, s.host = .start :: ms) → t.cache = Vector.replicate 64 ⟨0, 0, 0, 0⟩) ∧
      ((¬∃ ms, s.host = .start :: ms) → t.cache = s.cache))

/-! ## The host, start and reset -/

/-- 10_state.md R42: what `start` leaves. PX, and in a decode call the descriptor, are unspecified there and
left open. That `start` of a decode call withholds the whole descriptor from the host is the model's choice
(log 26): R42 gives no such rule. -/
def Obligations.StartInitialisesTheCall : Prop :=
  ∀ (s : State) (ms : List HostMove), s.status ≠ .running → s.host = .start :: ms →
    ∃ q w h c cs k, (s.mode = .enc → w = s.width ∧ h = s.height ∧ c = s.channels ∧ cs = s.colorspace) ∧
    (s.mode = .dec → k = .all) ∧
    step s = .next { s with
      host := ms
      withheld := k
      px := q
      width := w
      height := h
      channels := c
      colorspace := cs
      cache := Vector.replicate 64 ⟨0, 0, 0, 0⟩
      prev := ⟨0, 0, 0, 255⟩
      run := 0
      rp := 0
      snk := []
      snkLen := 0
      err := none
      status := .running }

/-- 10_state.md R43 and 70_reset_and_hazards.md R310: what a power-on reset leaves; the registers R43 leaves
unspecified stay as they were, which is the model's choice (log 6). -/
def Obligations.PowerOnResetsTheControlSide : Prop :=
  ∀ (s : State) (ms : List HostMove), s.status ≠ .running → s.host = .powerOnReset :: ms →
    step s = .next { s with
      host := ms, status := .idle, err := none, snk := [], snkLen := 0, run := 0, rp := 0 }

/-- 10_state.md R43: the state after power-on reset. -/
def Obligations.ResetLeavesTheBlockIdle : Prop :=
  State.reset.status = .idle ∧ errCode State.reset.err = 0 ∧ State.reset.snkLen = 0 ∧
    State.reset.run = 0 ∧ State.reset.rp = 0

/-- 10_state.md R38 and 44_byte_streamer.md R240, R244: while STATE is not RUNNING the block makes no move of its
own, and the host's writes write one register each; filling SRC makes it read as the bytes and SRC_LEN
their number (log 3). A descriptor register the host writes is no longer withheld from it (log 26). -/
def Obligations.HostWritesItsRegisters : Prop :=
  ∀ (s : State) (ms : List HostMove), s.status ≠ .running →
    (s.host = [] → step s = .next s) ∧
    (∀ m, s.host = .setMode m :: ms → step s = .next { s with host := ms, mode := m }) ∧
    (∀ w, s.host = .setWidth w :: ms → step s = .next { s with host := ms, width := w, withheld := { s.withheld with width := false } }) ∧
    (∀ h, s.host = .setHeight h :: ms → step s = .next { s with host := ms, height := h, withheld := { s.withheld with height := false } }) ∧
    (∀ c, s.host = .setChannels c :: ms →
      step s = .next { s with host := ms, channels := c, withheld := { s.withheld with channels := false } }) ∧
    (∀ cs, s.host = .setColorspace cs :: ms →
      step s = .next { s with host := ms, colorspace := cs, withheld := { s.withheld with colorspace := false } }) ∧
    (∀ bytes, s.host = .fillSource bytes :: ms → ∃ src,
      step s = .next { s with host := ms, src := src, srcLen := bytes.length } ∧
      src.slice 0 bytes.length = bytes)

/-- 70_reset_and_hazards.md R318 and 20_memory.md R76: while a call runs nothing writes SRC, SRC_LEN, MODE
or, in an encode call, the descriptor, and the host makes no move. A decode call writes the descriptor only
at its header (10_state.md R29 to R32, 40_header_trailer.md R124); that it also keeps it in the step in
which it fails is the model's choice (log 24; 93_implementation_defined.md U7 allows any value). -/
def Obligations.CallLeavesTheHostsSideAlone : Prop :=
  ∀ (s t : State), s.status = .running → step s = .next t →
    t.src = s.src ∧ t.srcLen = s.srcLen ∧ t.mode = s.mode ∧ t.host = s.host ∧
    t.decBadChannels = s.decBadChannels ∧ t.withheld = s.withheld ∧
    (s.mode = .enc ∨ s.rp ≠ 0 →
      t.width = s.width ∧ t.height = s.height ∧ t.channels = s.channels ∧ t.colorspace = s.colorspace)

/-! ## Invariants and whole-machine rules -/

/-- The invariant (10_state.md R44 and its bookkeeping) holds in the reset state. R43 leaves CACHE and SRC_LEN
unspecified there; that the slots are zero, as (d) needs, and SRC_LEN is 0 is the model's choice (log 5). -/
def Obligations.ResetSatisfiesTheInvariant : Prop := Inv State.reset

/-- Every step keeps the invariant of 10_state.md R44, from every state that has it. -/
def Obligations.StepKeepsTheInvariant : Prop := ∀ (s t : State), Inv s → step s = .next t → Inv t

/-- 20_memory.md R62 and 70_reset_and_hazards.md R330: from a state with the invariant no step reads outside
SRC or gets stuck; the one stop is a decode call whose CHANNELS byte is neither 3 nor 4. -/
def Obligations.StepsGoOn : Prop :=
  ∀ (s : State), Inv s → (decoding s → s.rp ≠ 0 → channelsDefined s ∨ s.decBadChannels = .as4) →
    ∃ t, step s = .next t

/-- 44_byte_streamer.md R247: RP moves by a pixel chunk, by an opcode's length, to 14 by the header parse,
or not at all, and never backwards. -/
def Obligations.ReadPositionOnlyAdvances : Prop :=
  ∀ (s t : State), Inv s → s.status = .running → step s = .next t →
    (s.mode = .enc → t.rp = s.rp ∨ t.rp = s.rp + s.channels.toNat) ∧
    (s.mode = .dec → t.rp = s.rp ∨ t.rp = s.rp + 1 ∨ t.rp = s.rp + 2 ∨ t.rp = s.rp + 4 ∨
      t.rp = s.rp + 5 ∨ (s.rp = 0 ∧ t.rp = 14)) ∧
    (t.status = .running → s.rp < t.rp ∨ (s.mode = .enc ∧ s.snkLen = 0 ∧ t.snkLen = 14))

/-- 20_memory.md R63: the sink is append-only; a step of a call that does not fail keeps every byte already
in it. -/
def Obligations.SinkIsAppendOnly : Prop :=
  ∀ (s t : State), s.status = .running → step s = .next t → t.status ≠ .failed →
    ∃ bytes, t.snk = s.snk ++ bytes

/-- 43_decoder.md R213 and 10_state.md R32: behind its header a decode call never looks at WIDTH, HEIGHT or
COLORSPACE; with other values in them every step does the same. That a step in which the call fails keeps
them is the model's choice (log 24; 93_implementation_defined.md U7 allows any value). -/
def Obligations.DecoderNeverLooksAtTheSize : Prop :=
  ∀ (s t : State) (w h : Word32) (cs : Byte), decoding s → s.rp ≠ 0 → step s = .next t →
    step { s with width := w, height := h, colorspace := cs } =
      .next { t with width := w, height := h, colorspace := cs }

/-- 42_encoder.md R177: an encode call appends at most 22 + WIDTH*HEIGHT*(CHANNELS+1) bytes. -/
def Obligations.EncodeOutputIsBounded : Prop :=
  ∀ (w h : Word32) (c cs : Byte) (pixels : List Byte) (s t : State) (n : Nat),
    core.run n (encodeCall w h c cs pixels s) = .next t →
    t.snkLen ≤ 22 + w.toNat * h.toNat * (c.toNat + 1)

/-- 44_byte_streamer.md R248: a decode call of a stream with three or four channels appends at most
62*CHANNELS*(SRC_LEN-22) bytes by its end. -/
def Obligations.DecodeOutputIsBounded : Prop :=
  ∀ (stream : List Byte) (s t : State) (n : Nat), (stream[12]? = some 3 ∨ stream[12]? = some 4) →
    core.run n (decodeCall stream s) = .next t → t.status = .done →
    t.snkLen ≤ 62 * t.channels.toNat * (stream.length - 22)

/-! ## Calls -/

/-- 70_reset_and_hazards.md R330 for encode: a call with a valid descriptor ends, in DONE, with one step a pixel
(WIDTH*HEIGHT of them). That the checks with the header are one step more and the trailer another, which
makes the count WIDTH*HEIGHT + 2, is the model's choice (log 11; R332). -/
def Obligations.EncodeCallEnds : Prop :=
  ∀ (w h : Word32) (c cs : Byte) (pixels : List Byte) (s : State), (c = 3 ∨ c = 4) →
    pixels.length = w.toNat * h.toNat * c.toNat →
    ∃ t, core.run (w.toNat * h.toNat + 2) (encodeCall w h c cs pixels s) = .next t ∧ t.status = .done ∧
      t.rp = pixels.length ∧ t.run = 0

/-- 43_decoder.md R215 and 70_reset_and_hazards.md R330 for decode: a call on any stream whose CHANNELS byte
is 3 or 4, or absent, ends, in DONE or FAILED, with at most SRC_LEN - 14 opcodes. That the checks with the
header are one step more and the end another, which makes the bound SRC_LEN - 14 + 2, is the model's choice
(log 11; R332). -/
def Obligations.DecodeCallEnds : Prop :=
  ∀ (stream : List Byte) (s : State), (22 ≤ stream.length → stream[12]? = some 3 ∨ stream[12]? = some 4) →
    ∃ t, core.run (stream.length - 14 + 2) (decodeCall stream s) = .next t ∧
      (t.status = .done ∨ t.status = .failed)

/-- 44_byte_streamer.md R243: no state crosses calls; what the host sees of a decode call, after any number
of steps, is a function of the stream and the parameter. -/
def Obligations.DecodeDependsOnTheStreamAlone : Prop :=
  ∀ (stream : List Byte) (s s' : State) (n : Nat), s.decBadChannels = s'.decBadChannels →
    outcomeView (core.run n (decodeCall stream s)) = outcomeView (core.run n (decodeCall stream s'))

/-- 44_byte_streamer.md R243 for encode: what the host sees is a function of the pixel buffer and the
descriptor. -/
def Obligations.EncodeDependsOnTheImageAlone : Prop :=
  ∀ (w h : Word32) (c cs : Byte) (pixels : List Byte) (s s' : State) (n : Nat),
    outcomeView (core.run n (encodeCall w h c cs pixels s)) =
      outcomeView (core.run n (encodeCall w h c cs pixels s'))

/-- 43_decoder.md R216: what the encoder emits for a differing pixel decodes, on the same PREV and CACHE, to
one opcode that sets PREV to the pixel, writes it and leaves the encoder's CACHE. -/
def Obligations.DecoderInvertsTheSelector : Prop :=
  ∀ (e d e' : State) (more : List Byte), atPixel e → e.run = 0 → nextPixel e ≠ e.prev → step e = .next e' →
    d.mode = .dec → d.channels = e.channels → d.prev = e.prev → d.cache = e.cache →
    8 ≤ more.length →
    ∃ bytes, e'.snk = e.snk ++ bytes ∧
      ((bytes ++ more).take 8 ≠ Config.trailer →
        ∃ i d', decode .boundary (bytes ++ more) = .ok (i, more) ∧ exec i d = .next d' ∧
          d'.prev = nextPixel e ∧ d'.prev = e'.prev ∧ d'.cache = e'.cache ∧
          d'.snk = d.snk ++ chunkBytes e.channels (nextPixel e) ∧ d'.rp = d.rp + bytes.length)

/-- 70_reset_and_hazards.md R323: in a stream an encode call made, a decode call meets the trailer pattern at
no boundary before its end, and at every boundary of the body at least 9 bytes remain. -/
def Obligations.EncodedStreamHasNoEarlyTrailer : Prop :=
  ∀ (w h : Word32) (c cs : Byte) (pixels stream : List Byte) (s s' t u : State) (n m : Nat),
    (c = 3 ∨ c = 4) → pixels.length = w.toNat * h.toNat * c.toNat →
    core.run n (encodeCall w h c cs pixels s) = .next t → hostView t = .done w h c cs stream →
    core.run m (decodeCall stream s') = .next u → u.status = .running → 14 ≤ u.rp →
    u.rp + 8 = stream.length ∨
      (9 ≤ stream.length - u.rp ∧ (stream.drop u.rp).take 8 ≠ [0, 0, 0, 0, 0, 0, 0, 1])

/-- 70_reset_and_hazards.md R321 (a) to (c), the round-trip identity: the stream an encode call makes of any
valid image decodes to the image, with the same width, height, channel count and colorspace byte. -/
def Obligations.RoundTripIdentity : Prop :=
  ∀ (w h : Word32) (c cs : Byte) (pixels : List Byte) (s : State), (c = 3 ∨ c = 4) →
    pixels.length = w.toNat * h.toNat * c.toNat →
    ∃ n t stream, core.run n (encodeCall w h c cs pixels s) = .next t ∧ hostView t = .done w h c cs stream ∧
      ∀ s', ∃ m u, core.run m (decodeCall stream s') = .next u ∧ hostView u = .done w h c cs pixels

/-- 70_reset_and_hazards.md R321, whole: a decode call on the stream of a valid image raises no failure,
returns the image and its descriptor, and at every boundary PREV and CACHE are the encoder's after the same
number of pixels. -/
def Obligations.DecoderMirrorsTheEncoder : Prop :=
  ∀ (w h : Word32) (c cs : Byte) (pixels stream : List Byte) (s t : State) (n : Nat), (c = 3 ∨ c = 4) →
    pixels.length = w.toNat * h.toNat * c.toNat →
    core.run n (encodeCall w h c cs pixels s) = .next t → hostView t = .done w h c cs stream →
    ∀ s',
      (∃ m u, core.run m (decodeCall stream s') = .next u ∧ hostView u = .done w h c cs pixels) ∧
      ∀ m u, core.run m (decodeCall stream s') = .next u →
        u.status ≠ .failed ∧
        (14 ≤ u.rp → ∃ k e, core.run k (encodeCall w h c cs pixels s) = .next e ∧ e.rp = u.snkLen ∧
          e.prev = u.prev ∧ e.cache = u.cache)
end

