-- ==== Sys2Proof/Laws/Decode.lean ====
section
/-! SUPPORT. The laws of the decoder and the encoder of one instruction: byte order, the boundary test, and
one opcode in each direction. -/

namespace Sys2Proof

/-! ## Byte order -/

theorem be32Read_be32Bytes (v : Word32) :
    ∃ b0 b1 b2 b3, be32Bytes v = [b0, b1, b2, b3] ∧ be32Read b0 b1 b2 b3 = v := by
  refine ⟨_, _, _, _, rfl, ?_⟩
  apply BitVec.eq_of_getLsbD_eq
  intro i hi
  simp only [be32Read, BitVec.getLsbD_append, BitVec.getLsbD_extractLsb']
  have : i < 32 := hi
  interval_cases i <;> simp

theorem be32Bytes_be32Read (b0 b1 b2 b3 : Byte) : be32Bytes (be32Read b0 b1 b2 b3) = [b0, b1, b2, b3] := by
  simp only [be32Bytes, be32Read, List.cons.injEq, and_true]
  refine ⟨?_, ?_, ?_, ?_⟩ <;>
  · apply BitVec.eq_of_getLsbD_eq
    intro i hi
    simp only [BitVec.getLsbD_append, BitVec.getLsbD_extractLsb']
    have : i < 8 := hi
    interval_cases i <;> simp

/-! ## The boundary test -/

theorem decodeBoundary_of_trailer {bytes : List Byte} (h : bytes.take 8 = Config.trailer) :
    decodeBoundary bytes = .ok (.endMarker, bytes.drop 8) := if_pos h

theorem decodeBoundary_of_short {bytes : List Byte} (h : bytes.length < 8) :
    decodeBoundary bytes = .error .missingEndMarker := by
  have h' : bytes.take 8 ≠ Config.trailer := by
    intro e
    have := congrArg List.length e
    simp [Config.trailer] at this
    omega
  exact (if_neg h').trans (if_pos h)

theorem decodeBoundary_of_tag {t : Byte} {rest : List Byte} (h : 8 ≤ (t :: rest).length)
    (ht : (t :: rest).take 8 ≠ Config.trailer) : decodeBoundary (t :: rest) = decodeTag t rest :=
  (if_neg ht).trans (if_neg (Nat.not_lt.mpr h))

/-! ## One opcode -/

theorem decodeTag_run_byte : ∀ t : Byte, t ≠ 0xfe → t ≠ 0xff → t.extractLsb' 6 2 = 0b11 →
    [t] = encode (.run ((t.extractLsb' 0 6).toNat + 1)) ∧
      (Instr.run ((t.extractLsb' 0 6).toNat + 1)).WellFormed := by decide

theorem decodeTag_index_byte : ∀ t : Byte, t.extractLsb' 6 2 = 0b00 →
    [t] = encode (.index (t.extractLsb' 0 6).toFin) := by decide

theorem decodeTag_diff_byte : ∀ t : Byte, t.extractLsb' 6 2 = 0b01 →
    [t] = encode (.diff (unbias 2 (t.extractLsb' 4 2)) (unbias 2 (t.extractLsb' 2 2)) (unbias 2 (t.extractLsb' 0 2))) ∧
    (Instr.diff (unbias 2 (t.extractLsb' 4 2)) (unbias 2 (t.extractLsb' 2 2))
      (unbias 2 (t.extractLsb' 0 2))).WellFormed := by decide

theorem decodeTag_luma_byte1 : ∀ t : Byte,
    t.extractLsb' 6 2 ≠ 0b11 → t.extractLsb' 6 2 ≠ 0b00 → t.extractLsb' 6 2 ≠ 0b01 →
    0x80 ||| biased 32 (unbias 32 (t.extractLsb' 0 6)) = t ∧
      -32 ≤ unbias 32 (t.extractLsb' 0 6) ∧ unbias 32 (t.extractLsb' 0 6) ≤ 31 := by decide

theorem decodeTag_luma_byte2 : ∀ u : Byte,
    (biased 8 (unbias 8 (u.extractLsb' 4 4)) <<< 4) ||| biased 8 (unbias 8 (u.extractLsb' 0 4)) = u ∧
      (-8 ≤ unbias 8 (u.extractLsb' 4 4) ∧ unbias 8 (u.extractLsb' 4 4) ≤ 7) ∧
      -8 ≤ unbias 8 (u.extractLsb' 0 4) ∧ unbias 8 (u.extractLsb' 0 4) ≤ 7 := by decide

/-- What an opcode's tag decodes to: a well-formed opcode, whose encoding it was read from. -/
theorem decodeTag_eq_ok {t : Byte} {bytes rest : List Byte} {i : Instr} (h : decodeTag t bytes = .ok (i, rest)) :
    i.WellFormed ∧ i.position = .boundary ∧ i ≠ .endMarker ∧ t :: bytes = encode i ++ rest := by
  unfold decodeTag at h
  split at h
  · next ht =>
    split at h <;> cases h
    subst ht
    exact ⟨rfl, rfl, by simp, rfl⟩
  split at h
  · next ht =>
    split at h <;> cases h
    subst ht
    exact ⟨rfl, rfl, by simp, rfl⟩
  split at h
  · next h1 h2 h3 =>
    cases h
    have := decodeTag_run_byte t h1 h2 h3
    exact ⟨this.2, rfl, by simp, by rw [← this.1]; rfl⟩
  split at h
  · next h4 =>
    cases h
    exact ⟨rfl, rfl, by simp, by rw [← decodeTag_index_byte t h4]; rfl⟩
  split at h
  · next h5 =>
    cases h
    have := decodeTag_diff_byte t h5
    exact ⟨this.2, rfl, by simp, by rw [← this.1]; rfl⟩
  split at h
  · next _ _ h3 h4 h5 _ u _ =>
    cases h
    have h6 := decodeTag_luma_byte1 t h3 h4 h5
    have h7 := decodeTag_luma_byte2 u
    refine ⟨decide_eq_true ⟨h6.2, h7.2⟩, rfl, by simp, ?_⟩
    rw [encode, h6.1, h7.1]
    rfl
  · cases h

theorem encode_index_byte : ∀ k : Fin 64,
    BitVec.ofNat 8 k.val ≠ 0xfe ∧ BitVec.ofNat 8 k.val ≠ 0xff ∧ (BitVec.ofNat 8 k.val).extractLsb' 6 2 = 0b00 ∧
      ((BitVec.ofNat 8 k.val).extractLsb' 0 6).toFin = k := by decide

/-- The encoding of a well-formed opcode decodes to it. -/
theorem decodeTag_encode {i : Instr} (hw : i.WellFormed) (hp : i.position = .boundary) (hne : i ≠ .endMarker)
    (rest : List Byte) : ∃ t bytes, encode i ++ rest = t :: bytes ∧ decodeTag t bytes = .ok (i, rest) := by
  cases i with
  | rgb => exact ⟨_, _, rfl, rfl⟩
  | rgba => exact ⟨_, _, rfl, rfl⟩
  | index k =>
    refine ⟨_, _, rfl, ?_⟩
    obtain ⟨h1, h2, h3, h4⟩ := encode_index_byte k
    simp only [decodeTag, h1, h2, h3, h4, if_false]
    rfl
  | diff dr dg db =>
    refine ⟨_, _, rfl, ?_⟩
    obtain ⟨⟨h1, h2⟩, ⟨h3, h4⟩, ⟨h5, h6⟩⟩ := of_decide_eq_true hw
    interval_cases dr <;> interval_cases dg <;> interval_cases db <;> rfl
  | luma dg drg dbg =>
    obtain ⟨⟨h1, h2⟩, ⟨h3, h4⟩, ⟨h5, h6⟩⟩ := of_decide_eq_true hw
    have e1 : (0x80 ||| biased 32 dg) ≠ 0xfe ∧ (0x80 ||| biased 32 dg) ≠ 0xff ∧
        (0x80 ||| biased 32 dg).extractLsb' 6 2 = 0b10 ∧ unbias 32 ((0x80 ||| biased 32 dg).extractLsb' 0 6) = dg := by
      interval_cases dg <;> decide
    have e2 : unbias 8 (((biased 8 drg <<< 4) ||| biased 8 dbg).extractLsb' 4 4) = drg ∧
        unbias 8 (((biased 8 drg <<< 4) ||| biased 8 dbg).extractLsb' 0 4) = dbg := by
      interval_cases drg <;> interval_cases dbg <;> decide
    obtain ⟨g1, g2, g3, g4⟩ := e1
    refine ⟨0x80 ||| biased 32 dg, ((biased 8 drg <<< 4) ||| biased 8 dbg) :: rest, rfl, ?_⟩
    unfold decodeTag
    rw [if_neg g1, if_neg g2, g3, if_neg (by decide), if_neg (by decide), if_neg (by decide)]
    simp only [g4, e2.1, e2.2]
  | run n =>
    refine ⟨_, _, rfl, ?_⟩
    obtain ⟨h1, h2⟩ := of_decide_eq_true hw
    interval_cases n <;> rfl
  | hdr => cases hp
  | endMarker => exact absurd rfl hne

/-! ## Either position -/

/-- What the decoder reads is well formed, belongs at its position, and lies within the bytes; behind HDR
there is room for the shortest body. -/
theorem decode_eq_ok {p : Position} {bytes rest : List Byte} {i : Instr} (h : decode p bytes = .ok (i, rest)) :
    i.WellFormed ∧ i.position = p ∧ i.length ≤ bytes.length ∧ (p = .first → 22 ≤ bytes.length) := by
  cases p with
  | first =>
    simp only [decode, decodeHeader] at h
    split at h
    · cases h
    split at h
    · next h1 h2 =>
      split at h <;> cases h
      simp only [Config.minStream] at h1
      exact ⟨rfl, rfl, by simp only [Instr.length]; omega, fun _ => by omega⟩
    · cases h
  | boundary =>
    simp only [decode, decodeBoundary] at h
    split at h
    · next h1 =>
      cases h
      have := congrArg List.length h1
      simp only [Config.trailer, Config.trailerLength, List.length_take, List.length_cons, List.length_nil] at this
      exact ⟨rfl, rfl, by simp only [Instr.length]; omega, by simp⟩
    split at h
    · cases h
    split at h
    · have := decodeTag_eq_ok h
      refine ⟨this.1, this.2.1, ?_, by simp⟩
      have e : (encode i).length = i.length := by cases i <;> rfl
      simp [this.2.2.2, e]
    · cases h

end Sys2Proof
end

