-- ==== Sys2Proof/Laws/State.lean ====
section
/-! SUPPORT. One lemma per field per named update of State, each true by computation, so that no later
proof unfolds a record update. -/

namespace Sys2Proof.Machine

/-! ## `memWrite` -/

@[simp] theorem memWrite_prev (bytes : List Byte) (s : State) : (memWrite bytes s).prev = s.prev := rfl
@[simp] theorem memWrite_px (bytes : List Byte) (s : State) : (memWrite bytes s).px = s.px := rfl
@[simp] theorem memWrite_cache (bytes : List Byte) (s : State) : (memWrite bytes s).cache = s.cache := rfl
@[simp] theorem memWrite_run (bytes : List Byte) (s : State) : (memWrite bytes s).run = s.run := rfl
@[simp] theorem memWrite_rp (bytes : List Byte) (s : State) : (memWrite bytes s).rp = s.rp := rfl
@[simp] theorem memWrite_snkLen (bytes : List Byte) (s : State) : (memWrite bytes s).snkLen = s.snkLen + bytes.length := rfl
@[simp] theorem memWrite_mode (bytes : List Byte) (s : State) : (memWrite bytes s).mode = s.mode := rfl
@[simp] theorem memWrite_width (bytes : List Byte) (s : State) : (memWrite bytes s).width = s.width := rfl
@[simp] theorem memWrite_height (bytes : List Byte) (s : State) : (memWrite bytes s).height = s.height := rfl
@[simp] theorem memWrite_channels (bytes : List Byte) (s : State) : (memWrite bytes s).channels = s.channels := rfl
@[simp] theorem memWrite_colorspace (bytes : List Byte) (s : State) : (memWrite bytes s).colorspace = s.colorspace := rfl
@[simp] theorem memWrite_srcLen (bytes : List Byte) (s : State) : (memWrite bytes s).srcLen = s.srcLen := rfl
@[simp] theorem memWrite_status (bytes : List Byte) (s : State) : (memWrite bytes s).status = s.status := rfl
@[simp] theorem memWrite_err (bytes : List Byte) (s : State) : (memWrite bytes s).err = s.err := rfl
@[simp] theorem memWrite_src (bytes : List Byte) (s : State) : (memWrite bytes s).src = s.src := rfl
@[simp] theorem memWrite_snk (bytes : List Byte) (s : State) : (memWrite bytes s).snk = s.snk ++ bytes := rfl
@[simp] theorem memWrite_decBadChannels (bytes : List Byte) (s : State) : (memWrite bytes s).decBadChannels = s.decBadChannels := rfl
@[simp] theorem memWrite_host (bytes : List Byte) (s : State) : (memWrite bytes s).host = s.host := rfl
@[simp] theorem memWrite_withheld (bytes : List Byte) (s : State) : (memWrite bytes s).withheld = s.withheld := rfl
@[simp] theorem lookup_memWrite (bytes : List Byte) (k : Fin 64) (s : State) : lookup k (memWrite bytes s) = lookup k s := rfl

/-! ## `emit` -/

@[simp] theorem emit_prev (i : Instr) (s : State) : (emit i s).prev = s.prev := rfl
@[simp] theorem emit_px (i : Instr) (s : State) : (emit i s).px = s.px := rfl
@[simp] theorem emit_cache (i : Instr) (s : State) : (emit i s).cache = s.cache := rfl
@[simp] theorem emit_run (i : Instr) (s : State) : (emit i s).run = s.run := rfl
@[simp] theorem emit_rp (i : Instr) (s : State) : (emit i s).rp = s.rp := rfl
@[simp] theorem emit_snkLen (i : Instr) (s : State) : (emit i s).snkLen = s.snkLen + (encode i).length := rfl
@[simp] theorem emit_mode (i : Instr) (s : State) : (emit i s).mode = s.mode := rfl
@[simp] theorem emit_width (i : Instr) (s : State) : (emit i s).width = s.width := rfl
@[simp] theorem emit_height (i : Instr) (s : State) : (emit i s).height = s.height := rfl
@[simp] theorem emit_channels (i : Instr) (s : State) : (emit i s).channels = s.channels := rfl
@[simp] theorem emit_colorspace (i : Instr) (s : State) : (emit i s).colorspace = s.colorspace := rfl
@[simp] theorem emit_srcLen (i : Instr) (s : State) : (emit i s).srcLen = s.srcLen := rfl
@[simp] theorem emit_status (i : Instr) (s : State) : (emit i s).status = s.status := rfl
@[simp] theorem emit_err (i : Instr) (s : State) : (emit i s).err = s.err := rfl
@[simp] theorem emit_src (i : Instr) (s : State) : (emit i s).src = s.src := rfl
@[simp] theorem emit_snk (i : Instr) (s : State) : (emit i s).snk = s.snk ++ encode i := rfl
@[simp] theorem emit_decBadChannels (i : Instr) (s : State) : (emit i s).decBadChannels = s.decBadChannels := rfl
@[simp] theorem emit_host (i : Instr) (s : State) : (emit i s).host = s.host := rfl
@[simp] theorem emit_withheld (i : Instr) (s : State) : (emit i s).withheld = s.withheld := rfl
@[simp] theorem lookup_emit (i : Instr) (k : Fin 64) (s : State) : lookup k (emit i s) = lookup k s := rfl

/-! ## `emitRun` -/

@[simp] theorem emitRun_prev (n : Nat) (s : State) : (emitRun n s).prev = s.prev := rfl
@[simp] theorem emitRun_px (n : Nat) (s : State) : (emitRun n s).px = s.px := rfl
@[simp] theorem emitRun_cache (n : Nat) (s : State) : (emitRun n s).cache = s.cache := rfl
@[simp] theorem emitRun_run (n : Nat) (s : State) : (emitRun n s).run = 0 := rfl
@[simp] theorem emitRun_rp (n : Nat) (s : State) : (emitRun n s).rp = s.rp := rfl
@[simp] theorem emitRun_snkLen (n : Nat) (s : State) : (emitRun n s).snkLen = s.snkLen + 1 := rfl
@[simp] theorem emitRun_mode (n : Nat) (s : State) : (emitRun n s).mode = s.mode := rfl
@[simp] theorem emitRun_width (n : Nat) (s : State) : (emitRun n s).width = s.width := rfl
@[simp] theorem emitRun_height (n : Nat) (s : State) : (emitRun n s).height = s.height := rfl
@[simp] theorem emitRun_channels (n : Nat) (s : State) : (emitRun n s).channels = s.channels := rfl
@[simp] theorem emitRun_colorspace (n : Nat) (s : State) : (emitRun n s).colorspace = s.colorspace := rfl
@[simp] theorem emitRun_srcLen (n : Nat) (s : State) : (emitRun n s).srcLen = s.srcLen := rfl
@[simp] theorem emitRun_status (n : Nat) (s : State) : (emitRun n s).status = s.status := rfl
@[simp] theorem emitRun_err (n : Nat) (s : State) : (emitRun n s).err = s.err := rfl
@[simp] theorem emitRun_src (n : Nat) (s : State) : (emitRun n s).src = s.src := rfl
@[simp] theorem emitRun_snk (n : Nat) (s : State) : (emitRun n s).snk = s.snk ++ encode (.run n) := rfl
@[simp] theorem emitRun_decBadChannels (n : Nat) (s : State) : (emitRun n s).decBadChannels = s.decBadChannels := rfl
@[simp] theorem emitRun_host (n : Nat) (s : State) : (emitRun n s).host = s.host := rfl
@[simp] theorem emitRun_withheld (n : Nat) (s : State) : (emitRun n s).withheld = s.withheld := rfl
@[simp] theorem lookup_emitRun (n : Nat) (k : Fin 64) (s : State) : lookup k (emitRun n s) = lookup k s := rfl

/-! ## `insertPixel` -/

@[simp] theorem insertPixel_prev (p : Pixel) (s : State) : (insertPixel p s).prev = s.prev := rfl
@[simp] theorem insertPixel_px (p : Pixel) (s : State) : (insertPixel p s).px = s.px := rfl
@[simp] theorem insertPixel_cache (p : Pixel) (s : State) : (insertPixel p s).cache = s.cache.set (hashSlot p) p := rfl
@[simp] theorem insertPixel_run (p : Pixel) (s : State) : (insertPixel p s).run = s.run := rfl
@[simp] theorem insertPixel_rp (p : Pixel) (s : State) : (insertPixel p s).rp = s.rp := rfl
@[simp] theorem insertPixel_snkLen (p : Pixel) (s : State) : (insertPixel p s).snkLen = s.snkLen := rfl
@[simp] theorem insertPixel_mode (p : Pixel) (s : State) : (insertPixel p s).mode = s.mode := rfl
@[simp] theorem insertPixel_width (p : Pixel) (s : State) : (insertPixel p s).width = s.width := rfl
@[simp] theorem insertPixel_height (p : Pixel) (s : State) : (insertPixel p s).height = s.height := rfl
@[simp] theorem insertPixel_channels (p : Pixel) (s : State) : (insertPixel p s).channels = s.channels := rfl
@[simp] theorem insertPixel_colorspace (p : Pixel) (s : State) : (insertPixel p s).colorspace = s.colorspace := rfl
@[simp] theorem insertPixel_srcLen (p : Pixel) (s : State) : (insertPixel p s).srcLen = s.srcLen := rfl
@[simp] theorem insertPixel_status (p : Pixel) (s : State) : (insertPixel p s).status = s.status := rfl
@[simp] theorem insertPixel_err (p : Pixel) (s : State) : (insertPixel p s).err = s.err := rfl
@[simp] theorem insertPixel_src (p : Pixel) (s : State) : (insertPixel p s).src = s.src := rfl
@[simp] theorem insertPixel_snk (p : Pixel) (s : State) : (insertPixel p s).snk = s.snk := rfl
@[simp] theorem insertPixel_decBadChannels (p : Pixel) (s : State) : (insertPixel p s).decBadChannels = s.decBadChannels := rfl
@[simp] theorem insertPixel_host (p : Pixel) (s : State) : (insertPixel p s).host = s.host := rfl
@[simp] theorem insertPixel_withheld (p : Pixel) (s : State) : (insertPixel p s).withheld = s.withheld := rfl

/-! ## `takePixel` -/

@[simp] theorem takePixel_prev (n : Nat) (p : Pixel) (s : State) : (takePixel n p s).prev = s.prev := rfl
@[simp] theorem takePixel_px (n : Nat) (p : Pixel) (s : State) : (takePixel n p s).px = p := rfl
@[simp] theorem takePixel_cache (n : Nat) (p : Pixel) (s : State) : (takePixel n p s).cache = s.cache := rfl
@[simp] theorem takePixel_run (n : Nat) (p : Pixel) (s : State) : (takePixel n p s).run = s.run := rfl
@[simp] theorem takePixel_rp (n : Nat) (p : Pixel) (s : State) : (takePixel n p s).rp = s.rp + n := rfl
@[simp] theorem takePixel_snkLen (n : Nat) (p : Pixel) (s : State) : (takePixel n p s).snkLen = s.snkLen := rfl
@[simp] theorem takePixel_mode (n : Nat) (p : Pixel) (s : State) : (takePixel n p s).mode = s.mode := rfl
@[simp] theorem takePixel_width (n : Nat) (p : Pixel) (s : State) : (takePixel n p s).width = s.width := rfl
@[simp] theorem takePixel_height (n : Nat) (p : Pixel) (s : State) : (takePixel n p s).height = s.height := rfl
@[simp] theorem takePixel_channels (n : Nat) (p : Pixel) (s : State) : (takePixel n p s).channels = s.channels := rfl
@[simp] theorem takePixel_colorspace (n : Nat) (p : Pixel) (s : State) : (takePixel n p s).colorspace = s.colorspace := rfl
@[simp] theorem takePixel_srcLen (n : Nat) (p : Pixel) (s : State) : (takePixel n p s).srcLen = s.srcLen := rfl
@[simp] theorem takePixel_status (n : Nat) (p : Pixel) (s : State) : (takePixel n p s).status = s.status := rfl
@[simp] theorem takePixel_err (n : Nat) (p : Pixel) (s : State) : (takePixel n p s).err = s.err := rfl
@[simp] theorem takePixel_src (n : Nat) (p : Pixel) (s : State) : (takePixel n p s).src = s.src := rfl
@[simp] theorem takePixel_snk (n : Nat) (p : Pixel) (s : State) : (takePixel n p s).snk = s.snk := rfl
@[simp] theorem takePixel_decBadChannels (n : Nat) (p : Pixel) (s : State) : (takePixel n p s).decBadChannels = s.decBadChannels := rfl
@[simp] theorem takePixel_host (n : Nat) (p : Pixel) (s : State) : (takePixel n p s).host = s.host := rfl
@[simp] theorem takePixel_withheld (n : Nat) (p : Pixel) (s : State) : (takePixel n p s).withheld = s.withheld := rfl
@[simp] theorem lookup_takePixel (n : Nat) (p : Pixel) (k : Fin 64) (s : State) : lookup k (takePixel n p s) = lookup k s := rfl

/-! ## `countPixel` -/

@[simp] theorem countPixel_prev (s : State) : (countPixel s).prev = s.prev := rfl
@[simp] theorem countPixel_px (s : State) : (countPixel s).px = s.px := rfl
@[simp] theorem countPixel_cache (s : State) : (countPixel s).cache = s.cache := rfl
@[simp] theorem countPixel_run (s : State) : (countPixel s).run = s.run + 1 := rfl
@[simp] theorem countPixel_rp (s : State) : (countPixel s).rp = s.rp := rfl
@[simp] theorem countPixel_snkLen (s : State) : (countPixel s).snkLen = s.snkLen := rfl
@[simp] theorem countPixel_mode (s : State) : (countPixel s).mode = s.mode := rfl
@[simp] theorem countPixel_width (s : State) : (countPixel s).width = s.width := rfl
@[simp] theorem countPixel_height (s : State) : (countPixel s).height = s.height := rfl
@[simp] theorem countPixel_channels (s : State) : (countPixel s).channels = s.channels := rfl
@[simp] theorem countPixel_colorspace (s : State) : (countPixel s).colorspace = s.colorspace := rfl
@[simp] theorem countPixel_srcLen (s : State) : (countPixel s).srcLen = s.srcLen := rfl
@[simp] theorem countPixel_status (s : State) : (countPixel s).status = s.status := rfl
@[simp] theorem countPixel_err (s : State) : (countPixel s).err = s.err := rfl
@[simp] theorem countPixel_src (s : State) : (countPixel s).src = s.src := rfl
@[simp] theorem countPixel_snk (s : State) : (countPixel s).snk = s.snk := rfl
@[simp] theorem countPixel_decBadChannels (s : State) : (countPixel s).decBadChannels = s.decBadChannels := rfl
@[simp] theorem countPixel_host (s : State) : (countPixel s).host = s.host := rfl
@[simp] theorem countPixel_withheld (s : State) : (countPixel s).withheld = s.withheld := rfl
@[simp] theorem lookup_countPixel (k : Fin 64) (s : State) : lookup k (countPixel s) = lookup k s := rfl

/-! ## `settlePixel` -/

@[simp] theorem settlePixel_prev (s : State) : (settlePixel s).prev = s.px := rfl
@[simp] theorem settlePixel_px (s : State) : (settlePixel s).px = s.px := rfl
@[simp] theorem settlePixel_cache (s : State) : (settlePixel s).cache = s.cache := rfl
@[simp] theorem settlePixel_run (s : State) : (settlePixel s).run = s.run := rfl
@[simp] theorem settlePixel_rp (s : State) : (settlePixel s).rp = s.rp := rfl
@[simp] theorem settlePixel_snkLen (s : State) : (settlePixel s).snkLen = s.snkLen := rfl
@[simp] theorem settlePixel_mode (s : State) : (settlePixel s).mode = s.mode := rfl
@[simp] theorem settlePixel_width (s : State) : (settlePixel s).width = s.width := rfl
@[simp] theorem settlePixel_height (s : State) : (settlePixel s).height = s.height := rfl
@[simp] theorem settlePixel_channels (s : State) : (settlePixel s).channels = s.channels := rfl
@[simp] theorem settlePixel_colorspace (s : State) : (settlePixel s).colorspace = s.colorspace := rfl
@[simp] theorem settlePixel_srcLen (s : State) : (settlePixel s).srcLen = s.srcLen := rfl
@[simp] theorem settlePixel_status (s : State) : (settlePixel s).status = s.status := rfl
@[simp] theorem settlePixel_err (s : State) : (settlePixel s).err = s.err := rfl
@[simp] theorem settlePixel_src (s : State) : (settlePixel s).src = s.src := rfl
@[simp] theorem settlePixel_snk (s : State) : (settlePixel s).snk = s.snk := rfl
@[simp] theorem settlePixel_decBadChannels (s : State) : (settlePixel s).decBadChannels = s.decBadChannels := rfl
@[simp] theorem settlePixel_host (s : State) : (settlePixel s).host = s.host := rfl
@[simp] theorem settlePixel_withheld (s : State) : (settlePixel s).withheld = s.withheld := rfl
@[simp] theorem lookup_settlePixel (k : Fin 64) (s : State) : lookup k (settlePixel s) = lookup k s := rfl

/-! ## `reconstruct` -/

@[simp] theorem reconstruct_prev (n : Nat) (p : Pixel) (s : State) : (reconstruct n p s).prev = p := rfl
@[simp] theorem reconstruct_px (n : Nat) (p : Pixel) (s : State) : (reconstruct n p s).px = p := rfl
@[simp] theorem reconstruct_cache (n : Nat) (p : Pixel) (s : State) : (reconstruct n p s).cache = s.cache := rfl
@[simp] theorem reconstruct_run (n : Nat) (p : Pixel) (s : State) : (reconstruct n p s).run = s.run := rfl
@[simp] theorem reconstruct_rp (n : Nat) (p : Pixel) (s : State) : (reconstruct n p s).rp = s.rp + n := rfl
@[simp] theorem reconstruct_snkLen (n : Nat) (p : Pixel) (s : State) : (reconstruct n p s).snkLen = s.snkLen := rfl
@[simp] theorem reconstruct_mode (n : Nat) (p : Pixel) (s : State) : (reconstruct n p s).mode = s.mode := rfl
@[simp] theorem reconstruct_width (n : Nat) (p : Pixel) (s : State) : (reconstruct n p s).width = s.width := rfl
@[simp] theorem reconstruct_height (n : Nat) (p : Pixel) (s : State) : (reconstruct n p s).height = s.height := rfl
@[simp] theorem reconstruct_channels (n : Nat) (p : Pixel) (s : State) : (reconstruct n p s).channels = s.channels := rfl
@[simp] theorem reconstruct_colorspace (n : Nat) (p : Pixel) (s : State) : (reconstruct n p s).colorspace = s.colorspace := rfl
@[simp] theorem reconstruct_srcLen (n : Nat) (p : Pixel) (s : State) : (reconstruct n p s).srcLen = s.srcLen := rfl
@[simp] theorem reconstruct_status (n : Nat) (p : Pixel) (s : State) : (reconstruct n p s).status = s.status := rfl
@[simp] theorem reconstruct_err (n : Nat) (p : Pixel) (s : State) : (reconstruct n p s).err = s.err := rfl
@[simp] theorem reconstruct_src (n : Nat) (p : Pixel) (s : State) : (reconstruct n p s).src = s.src := rfl
@[simp] theorem reconstruct_snk (n : Nat) (p : Pixel) (s : State) : (reconstruct n p s).snk = s.snk := rfl
@[simp] theorem reconstruct_decBadChannels (n : Nat) (p : Pixel) (s : State) : (reconstruct n p s).decBadChannels = s.decBadChannels := rfl
@[simp] theorem reconstruct_host (n : Nat) (p : Pixel) (s : State) : (reconstruct n p s).host = s.host := rfl
@[simp] theorem reconstruct_withheld (n : Nat) (p : Pixel) (s : State) : (reconstruct n p s).withheld = s.withheld := rfl
@[simp] theorem lookup_reconstruct (n : Nat) (p : Pixel) (k : Fin 64) (s : State) : lookup k (reconstruct n p s) = lookup k s := rfl

/-! ## `loadHeader` -/

@[simp] theorem loadHeader_prev (w h : Word32) (c cs : Byte) (s : State) : (loadHeader w h c cs s).prev = s.prev := rfl
@[simp] theorem loadHeader_px (w h : Word32) (c cs : Byte) (s : State) : (loadHeader w h c cs s).px = s.px := rfl
@[simp] theorem loadHeader_cache (w h : Word32) (c cs : Byte) (s : State) : (loadHeader w h c cs s).cache = s.cache := rfl
@[simp] theorem loadHeader_run (w h : Word32) (c cs : Byte) (s : State) : (loadHeader w h c cs s).run = s.run := rfl
@[simp] theorem loadHeader_rp (w h : Word32) (c cs : Byte) (s : State) : (loadHeader w h c cs s).rp = Config.headerLength := rfl
@[simp] theorem loadHeader_snkLen (w h : Word32) (c cs : Byte) (s : State) : (loadHeader w h c cs s).snkLen = s.snkLen := rfl
@[simp] theorem loadHeader_mode (w h : Word32) (c cs : Byte) (s : State) : (loadHeader w h c cs s).mode = s.mode := rfl
@[simp] theorem loadHeader_width (w h : Word32) (c cs : Byte) (s : State) : (loadHeader w h c cs s).width = w := rfl
@[simp] theorem loadHeader_height (w h : Word32) (c cs : Byte) (s : State) : (loadHeader w h c cs s).height = h := rfl
@[simp] theorem loadHeader_channels (w h : Word32) (c cs : Byte) (s : State) : (loadHeader w h c cs s).channels = c := rfl
@[simp] theorem loadHeader_colorspace (w h : Word32) (c cs : Byte) (s : State) : (loadHeader w h c cs s).colorspace = cs := rfl
@[simp] theorem loadHeader_srcLen (w h : Word32) (c cs : Byte) (s : State) : (loadHeader w h c cs s).srcLen = s.srcLen := rfl
@[simp] theorem loadHeader_status (w h : Word32) (c cs : Byte) (s : State) : (loadHeader w h c cs s).status = s.status := rfl
@[simp] theorem loadHeader_err (w h : Word32) (c cs : Byte) (s : State) : (loadHeader w h c cs s).err = s.err := rfl
@[simp] theorem loadHeader_src (w h : Word32) (c cs : Byte) (s : State) : (loadHeader w h c cs s).src = s.src := rfl
@[simp] theorem loadHeader_snk (w h : Word32) (c cs : Byte) (s : State) : (loadHeader w h c cs s).snk = s.snk := rfl
@[simp] theorem loadHeader_decBadChannels (w h : Word32) (c cs : Byte) (s : State) : (loadHeader w h c cs s).decBadChannels = s.decBadChannels := rfl
@[simp] theorem loadHeader_host (w h : Word32) (c cs : Byte) (s : State) : (loadHeader w h c cs s).host = s.host := rfl
@[simp] theorem loadHeader_withheld (w h : Word32) (c cs : Byte) (s : State) : (loadHeader w h c cs s).withheld = s.withheld := rfl
@[simp] theorem lookup_loadHeader (w h : Word32) (c cs : Byte) (k : Fin 64) (s : State) : lookup k (loadHeader w h c cs s) = lookup k s := rfl

/-! ## `raise` -/

@[simp] theorem raise_prev (f : Failure) (s : State) : (raise f s).prev = s.prev := rfl
@[simp] theorem raise_px (f : Failure) (s : State) : (raise f s).px = s.px := rfl
@[simp] theorem raise_cache (f : Failure) (s : State) : (raise f s).cache = s.cache := rfl
@[simp] theorem raise_run (f : Failure) (s : State) : (raise f s).run = s.run := rfl
@[simp] theorem raise_rp (f : Failure) (s : State) : (raise f s).rp = s.rp := rfl
@[simp] theorem raise_snkLen (f : Failure) (s : State) : (raise f s).snkLen = 0 := rfl
@[simp] theorem raise_mode (f : Failure) (s : State) : (raise f s).mode = s.mode := rfl
@[simp] theorem raise_width (f : Failure) (s : State) : (raise f s).width = s.width := rfl
@[simp] theorem raise_height (f : Failure) (s : State) : (raise f s).height = s.height := rfl
@[simp] theorem raise_channels (f : Failure) (s : State) : (raise f s).channels = s.channels := rfl
@[simp] theorem raise_colorspace (f : Failure) (s : State) : (raise f s).colorspace = s.colorspace := rfl
@[simp] theorem raise_srcLen (f : Failure) (s : State) : (raise f s).srcLen = s.srcLen := rfl
@[simp] theorem raise_status (f : Failure) (s : State) : (raise f s).status = .failed := rfl
@[simp] theorem raise_err (f : Failure) (s : State) : (raise f s).err = some f := rfl
@[simp] theorem raise_src (f : Failure) (s : State) : (raise f s).src = s.src := rfl
@[simp] theorem raise_snk (f : Failure) (s : State) : (raise f s).snk = [] := rfl
@[simp] theorem raise_decBadChannels (f : Failure) (s : State) : (raise f s).decBadChannels = s.decBadChannels := rfl
@[simp] theorem raise_host (f : Failure) (s : State) : (raise f s).host = s.host := rfl
@[simp] theorem raise_withheld (f : Failure) (s : State) : (raise f s).withheld = s.withheld := rfl
@[simp] theorem lookup_raise (f : Failure) (k : Fin 64) (s : State) : lookup k (raise f s) = lookup k s := rfl

/-! ## `finish` -/

@[simp] theorem finish_prev (s : State) : (finish s).prev = s.prev := rfl
@[simp] theorem finish_px (s : State) : (finish s).px = s.px := rfl
@[simp] theorem finish_cache (s : State) : (finish s).cache = s.cache := rfl
@[simp] theorem finish_run (s : State) : (finish s).run = s.run := rfl
@[simp] theorem finish_rp (s : State) : (finish s).rp = s.rp := rfl
@[simp] theorem finish_snkLen (s : State) : (finish s).snkLen = s.snkLen := rfl
@[simp] theorem finish_mode (s : State) : (finish s).mode = s.mode := rfl
@[simp] theorem finish_width (s : State) : (finish s).width = s.width := rfl
@[simp] theorem finish_height (s : State) : (finish s).height = s.height := rfl
@[simp] theorem finish_channels (s : State) : (finish s).channels = s.channels := rfl
@[simp] theorem finish_colorspace (s : State) : (finish s).colorspace = s.colorspace := rfl
@[simp] theorem finish_srcLen (s : State) : (finish s).srcLen = s.srcLen := rfl
@[simp] theorem finish_status (s : State) : (finish s).status = .done := rfl
@[simp] theorem finish_err (s : State) : (finish s).err = s.err := rfl
@[simp] theorem finish_src (s : State) : (finish s).src = s.src := rfl
@[simp] theorem finish_snk (s : State) : (finish s).snk = s.snk := rfl
@[simp] theorem finish_decBadChannels (s : State) : (finish s).decBadChannels = s.decBadChannels := rfl
@[simp] theorem finish_host (s : State) : (finish s).host = s.host := rfl
@[simp] theorem finish_withheld (s : State) : (finish s).withheld = s.withheld := rfl
@[simp] theorem lookup_finish (k : Fin 64) (s : State) : lookup k (finish s) = lookup k s := rfl

/-! ## `start` -/

@[simp] theorem start_prev (s : State) : (start s).prev = Pixel.opaqueBlack := rfl
@[simp] theorem start_px (s : State) : (start s).px = s.px := rfl
@[simp] theorem start_cache (s : State) : (start s).cache = Vector.replicate 64 Pixel.zero := rfl
@[simp] theorem start_run (s : State) : (start s).run = 0 := rfl
@[simp] theorem start_rp (s : State) : (start s).rp = 0 := rfl
@[simp] theorem start_snkLen (s : State) : (start s).snkLen = 0 := rfl
@[simp] theorem start_mode (s : State) : (start s).mode = s.mode := rfl
@[simp] theorem start_width (s : State) : (start s).width = s.width := rfl
@[simp] theorem start_height (s : State) : (start s).height = s.height := rfl
@[simp] theorem start_channels (s : State) : (start s).channels = s.channels := rfl
@[simp] theorem start_colorspace (s : State) : (start s).colorspace = s.colorspace := rfl
@[simp] theorem start_srcLen (s : State) : (start s).srcLen = s.srcLen := rfl
@[simp] theorem start_status (s : State) : (start s).status = .running := rfl
@[simp] theorem start_err (s : State) : (start s).err = none := rfl
@[simp] theorem start_src (s : State) : (start s).src = s.src := rfl
@[simp] theorem start_snk (s : State) : (start s).snk = [] := rfl
@[simp] theorem start_decBadChannels (s : State) : (start s).decBadChannels = s.decBadChannels := rfl
@[simp] theorem start_host (s : State) : (start s).host = s.host := rfl
@[simp] theorem start_withheld (s : State) : (start s).withheld = withheldAtStart s := rfl

/-! ## `powerOn` -/

@[simp] theorem powerOn_prev (s : State) : (powerOn s).prev = s.prev := rfl
@[simp] theorem powerOn_px (s : State) : (powerOn s).px = s.px := rfl
@[simp] theorem powerOn_cache (s : State) : (powerOn s).cache = s.cache := rfl
@[simp] theorem powerOn_run (s : State) : (powerOn s).run = 0 := rfl
@[simp] theorem powerOn_rp (s : State) : (powerOn s).rp = 0 := rfl
@[simp] theorem powerOn_snkLen (s : State) : (powerOn s).snkLen = 0 := rfl
@[simp] theorem powerOn_mode (s : State) : (powerOn s).mode = s.mode := rfl
@[simp] theorem powerOn_width (s : State) : (powerOn s).width = s.width := rfl
@[simp] theorem powerOn_height (s : State) : (powerOn s).height = s.height := rfl
@[simp] theorem powerOn_channels (s : State) : (powerOn s).channels = s.channels := rfl
@[simp] theorem powerOn_colorspace (s : State) : (powerOn s).colorspace = s.colorspace := rfl
@[simp] theorem powerOn_srcLen (s : State) : (powerOn s).srcLen = s.srcLen := rfl
@[simp] theorem powerOn_status (s : State) : (powerOn s).status = .idle := rfl
@[simp] theorem powerOn_err (s : State) : (powerOn s).err = none := rfl
@[simp] theorem powerOn_src (s : State) : (powerOn s).src = s.src := rfl
@[simp] theorem powerOn_snk (s : State) : (powerOn s).snk = [] := rfl
@[simp] theorem powerOn_decBadChannels (s : State) : (powerOn s).decBadChannels = s.decBadChannels := rfl
@[simp] theorem powerOn_host (s : State) : (powerOn s).host = s.host := rfl
@[simp] theorem powerOn_withheld (s : State) : (powerOn s).withheld = s.withheld := rfl
@[simp] theorem lookup_powerOn (k : Fin 64) (s : State) : lookup k (powerOn s) = lookup k s := rfl

end Sys2Proof.Machine
end

