-- ==== Sys2Proof/Laws/Host.lean ====
section
/-! SUPPORT. What the host's readings depend on, and when they withhold the descriptor. -/

namespace Sys2Proof.Machine

/-- The host cannot tell states apart that differ in PREV, PX, CACHE and RUN (10_state.md R38). -/
theorem hostReadings_internal (s : State) (p q : Pixel) (c : Vector Pixel 64) (r : BitVec 6) :
    hostReadings { s with prev := p, px := q, cache := c, run := r } = hostReadings s := rfl

theorem readDescriptor_of_loaded {α : Type} {s : State} (h : descriptorLoaded s) (b : Bool) (v : α) :
    readDescriptor b v s = some v := if_neg fun e => e.2 h

/-- A register that is not withheld reads as it stands (10_state.md R38). -/
theorem readDescriptor_false {α : Type} (v : α) (s : State) : readDescriptor false v s = some v :=
  if_neg fun e => Bool.noConfusion e.1

theorem readDescriptor_of_withheld {α : Type} {s : State} (h : ¬descriptorLoaded s) (v : α) :
    readDescriptor true v s = none := if_pos ⟨rfl, h⟩

@[simp] theorem withheldAtStart_dec {s : State} (h : s.mode = .dec) : withheldAtStart s = .all := by
  simp [withheldAtStart, h]

/-- Whatever MODE is, a failed state with every mark gives the host no descriptor (60_exceptions.md R280). -/
theorem hostReadings_of_failed {s : State} (h : s.status = .failed) (hw : s.withheld = .all) :
    (hostReadings s).width = none ∧ (hostReadings s).height = none ∧ (hostReadings s).channels = none ∧
      (hostReadings s).colorspace = none := by
  have hl : ¬descriptorLoaded s := by simp [descriptorLoaded, h]
  simp only [hostReadings, hw, DescriptorMask.all, readDescriptor_of_withheld hl, and_self]

/-- The marks of a failed decode call outlive a rewritten MODE, a filled SRC and a power-on reset. -/
theorem hostMove_withheld {m : HostMove} {s : State}
    (hm : (∃ k, m = .setMode k) ∨ (∃ b, m = .fillSource b) ∨ m = .powerOnReset) :
    (hostMove m s).withheld = s.withheld := by
  rcases hm with ⟨_, rfl⟩ | ⟨_, rfl⟩ | rfl <;> rfl

/-- The result is a function of the readings. -/
theorem hostView_eq_of_hostReadings {s t : State} (h : hostReadings s = hostReadings t) :
    hostView s = hostView t := by
  simp only [hostReadings, HostReadings.mk.injEq] at h
  obtain ⟨-, hw, hh, hc, hcs, -, -, hs, he, hk⟩ := h
  unfold hostView
  rw [← hs]
  cases e : s.status with
  | idle => rfl
  | running => rfl
  | failed => simp only [he]
  | done =>
    have l : descriptorLoaded s := .inl e
    have l' : descriptorLoaded t := .inl (hs ▸ e)
    simp only [readDescriptor_of_loaded l, readDescriptor_of_loaded l', Option.some.injEq] at hw hh hc hcs
    simp only [← hs, e, reduceCtorEq, if_false, Option.some.injEq] at hk
    simp only [hw, hh, hc, hcs, hk]

end Sys2Proof.Machine
end

