-- ==== Sys2Proof/Laws/Memory.lean ====
section
/-! SUPPORT. The laws of the SRC memory: a read after a write, the canonical form, and what the host's
filling of SRC leaves. -/

namespace Sys2Proof.Machine

@[simp] theorem Memory.read_nil (a : Nat) : Memory.read [] a = Memory.unlisted := rfl

theorem Memory.wfFrom_mono {a b : Nat} {m : Memory} (h : b ≤ a) (hm : m.wfFrom a = true) :
    m.wfFrom b = true := by
  cases m with
  | nil => rfl
  | cons c m =>
    simp only [Memory.wfFrom, Bool.and_eq_true, decide_eq_true_eq] at hm ⊢
    exact ⟨⟨by omega, hm.1.2⟩, hm.2⟩

/-- Nothing is listed below the least address of a canonical memory. -/
theorem Memory.read_of_lt {a b : Nat} {m : Memory} (hm : m.wfFrom a = true) (h : b < a) :
    m.read b = Memory.unlisted := by
  induction m generalizing a with
  | nil => rfl
  | cons c m ih =>
    simp only [Memory.wfFrom, Bool.and_eq_true, decide_eq_true_eq] at hm
    have hne : ¬c.1 = b := by omega
    simp only [Memory.read, hne, if_false]
    exact ih hm.2 (by omega)

theorem Memory.wfFrom_consCell {a k : Nat} {b : Byte} {m : Memory} (hk : a ≤ k)
    (hm : m.wfFrom (k + 1) = true) : (Memory.consCell k b m).wfFrom a = true := by
  unfold Memory.consCell
  split
  · exact Memory.wfFrom_mono (by omega) hm
  · simp_all [Memory.wfFrom]

theorem Memory.read_consCell {a k : Nat} {b : Byte} {m : Memory} (hm : m.wfFrom (k + 1) = true) :
    (Memory.consCell k b m).read a = if k = a then b else m.read a := by
  unfold Memory.consCell
  split
  · next hb =>
    split
    · next hka => rw [Memory.read_of_lt hm (by omega), hb]
    · rfl
  · rfl

/-- A write keeps the canonical form. -/
theorem Memory.wfFrom_write {n a : Nat} {b : Byte} {m : Memory} (hn : n ≤ a) (hm : m.wfFrom n = true) :
    (m.write a b).wfFrom n = true := by
  induction m generalizing n with
  | nil => exact Memory.wfFrom_consCell hn rfl
  | cons c m ih =>
    simp only [Memory.wfFrom, Bool.and_eq_true, decide_eq_true_eq] at hm
    simp only [Memory.write]
    split
    · simp only [Memory.wfFrom, Bool.and_eq_true, decide_eq_true_eq]
      exact ⟨hm.1, ih (by omega) hm.2⟩
    · split
      · next h => exact Memory.wfFrom_consCell hn (by rw [← h]; exact hm.2)
      · refine Memory.wfFrom_consCell hn ?_
        simp only [Memory.wfFrom, Bool.and_eq_true, decide_eq_true_eq]
        exact ⟨⟨by omega, hm.1.2⟩, hm.2⟩

theorem Memory.wf_write {a : Nat} {b : Byte} {m : Memory} (hm : m.wf = true) : (m.write a b).wf = true :=
  Memory.wfFrom_write (Nat.zero_le a) hm

/-- A read after a write: the written byte at its address, every other byte as before. -/
theorem Memory.read_write {n a x : Nat} {b : Byte} {m : Memory} (hm : m.wfFrom n = true) :
    (m.write a b).read x = if a = x then b else m.read x := by
  induction m generalizing n with
  | nil => exact Memory.read_consCell rfl
  | cons c m ih =>
    simp only [Memory.wfFrom, Bool.and_eq_true, decide_eq_true_eq] at hm
    simp only [Memory.write]
    split
    · next h =>
      simp only [Memory.read, ih hm.2]
      split <;> split <;> first | rfl | omega
    · split
      · next h =>
        rw [Memory.read_consCell (by rw [← h]; exact hm.2)]
        simp only [Memory.read, h]
        split <;> rfl
      · next h1 h2 =>
        rw [Memory.read_consCell]
        simp only [Memory.wfFrom, Bool.and_eq_true, decide_eq_true_eq]
        exact ⟨⟨by omega, hm.1.2⟩, hm.2⟩

theorem Memory.wf_writeList {bs : List Byte} {a : Nat} {m : Memory} (hm : m.wf = true) :
    (m.writeList a bs).wf = true := by
  induction bs generalizing a m with
  | nil => exact hm
  | cons b bs ih => exact ih (Memory.wf_write hm)

theorem Memory.wfFrom_ofList (a : Nat) (bs : List Byte) : (Memory.ofList a bs).wfFrom a = true := by
  induction bs generalizing a with
  | nil => rfl
  | cons b bs ih => exact Memory.wfFrom_consCell (Nat.le_refl a) (ih (a + 1))

theorem Memory.wf_ofList (bs : List Byte) : (Memory.ofList 0 bs).wf = true := Memory.wfFrom_ofList 0 bs

/-- The filled memory reads as the bytes it was filled with. -/
theorem Memory.read_ofList (a k : Nat) (bs : List Byte) :
    (Memory.ofList a bs).read (a + k) = bs.getD k Memory.unlisted := by
  induction bs generalizing a k with
  | nil => rfl
  | cons b bs ih =>
    rw [Memory.ofList, Memory.read_consCell (Memory.wfFrom_ofList _ _)]
    cases k with
    | zero => simp
    | succ k =>
      have h := ih (a + 1) k
      rw [if_neg (by omega), show a + (k + 1) = a + 1 + k by omega, h]
      simp

theorem Memory.below_ofList (a : Nat) (bs : List Byte) :
    (Memory.ofList a bs).below (a + bs.length) = true := by
  induction bs generalizing a with
  | nil => rfl
  | cons b bs ih =>
    have h := ih (a + 1)
    have e : a + (b :: bs).length = a + 1 + bs.length := by simp; omega
    rw [e]
    simp only [Memory.ofList, Memory.consCell]
    split
    · exact h
    · simp only [Memory.below, List.all_cons, Bool.and_eq_true, decide_eq_true_eq] at h ⊢
      exact ⟨by omega, h⟩

@[simp] theorem Memory.length_slice (m : Memory) (a n : Nat) : (m.slice a n).length = n := by
  induction n generalizing a with
  | zero => rfl
  | succ n ih => simp [Memory.slice, ih]

theorem Memory.getElem?_slice (m : Memory) (a n k : Nat) :
    (m.slice a n)[k]? = if k < n then some (m.read (a + k)) else none := by
  induction n generalizing a k with
  | zero => simp [Memory.slice]
  | succ n ih =>
    cases k with
    | zero => simp [Memory.slice]
    | succ k => simp [Memory.slice, ih, Nat.add_assoc, Nat.add_comm 1]

/-- A stretch of the filled memory is that stretch of the bytes. -/
theorem Memory.slice_ofList (bs : List Byte) (a n : Nat) (h : a + n ≤ bs.length) :
    (Memory.ofList 0 bs).slice a n = (bs.drop a).take n := by
  apply List.ext_getElem?
  intro k
  rw [Memory.getElem?_slice, List.getElem?_take]
  split
  · next hk =>
    have := Memory.read_ofList 0 (a + k) bs
    rw [Nat.zero_add] at this
    rw [this, List.getElem?_drop, List.getD_eq_getElem?_getD, List.getElem?_eq_getElem (by omega)]
    rfl
  · rfl

/-- Canonical memories that read alike are equal. -/
theorem Memory.ext_of_wfFrom {n : Nat} {m m' : Memory} (hm : m.wfFrom n = true) (hm' : m'.wfFrom n = true)
    (h : ∀ a, m.read a = m'.read a) : m = m' := by
  induction m generalizing n m' with
  | nil =>
    cases m' with
    | nil => rfl
    | cons c m' =>
      simp only [Memory.wfFrom, Bool.and_eq_true, decide_eq_true_eq] at hm'
      have := h c.1
      simp only [Memory.read, if_true] at this
      exact absurd this.symm hm'.1.2
  | cons c m ih =>
    simp only [Memory.wfFrom, Bool.and_eq_true, decide_eq_true_eq] at hm
    cases m' with
    | nil =>
      have := h c.1
      simp only [Memory.read, if_true] at this
      exact absurd this hm.1.2
    | cons c' m' =>
      simp only [Memory.wfFrom, Bool.and_eq_true, decide_eq_true_eq] at hm'
      have e1 : c.1 = c'.1 := by
        rcases Nat.lt_trichotomy c.1 c'.1 with hlt | he | hgt
        · have h1 := h c.1
          have h2 : Memory.read m' c.1 = Memory.unlisted := Memory.read_of_lt hm'.2 (by omega)
          simp only [Memory.read, if_true, if_neg (show ¬c'.1 = c.1 by omega), h2] at h1
          exact absurd h1 hm.1.2
        · exact he
        · have h1 := h c'.1
          have h2 : Memory.read m c'.1 = Memory.unlisted := Memory.read_of_lt hm.2 (by omega)
          simp only [Memory.read, if_true, if_neg (show ¬c.1 = c'.1 by omega), h2] at h1
          exact absurd h1.symm hm'.1.2
      have e2 : c.2 = c'.2 := by
        have h1 := h c.1
        simpa only [Memory.read, if_true, if_pos e1.symm] using h1
      have e3 : m = m' := by
        refine ih hm.2 (by rw [e1]; exact hm'.2) fun a => ?_
        by_cases ha : c.1 = a
        · subst ha
          rw [Memory.read_of_lt hm.2 (Nat.lt_succ_self _),
            Memory.read_of_lt hm'.2 (by omega)]
        · have h1 := h a
          simpa only [Memory.read, if_neg ha, if_neg (show ¬c'.1 = a by omega)] using h1
      rw [e3, Prod.ext e1 e2]

end Sys2Proof.Machine
end

