-- ==== Sys2Proof/Laws/Ops.lean ====
section
/-! SUPPORT. What each shared operation can do, said once. -/

namespace Sys2Proof.Machine

/-! ## Sequencing -/

@[simp] theorem andThen_next (s : State) (f : State → Result) : andThen (.next s) f = f s := rfl
@[simp] theorem andThen_fault (r : Fault) (f : State → Result) : andThen (.fault r) f = .fault r := rfl
@[simp] theorem andThen_refused (r : Refusal) (f : State → Result) : andThen (.refused r) f = .refused r := rfl

theorem andThen_eq_next {o : Result} {f : State → Result} {t : State} :
    andThen o f = .next t ↔ ∃ s, o = .next s ∧ f s = .next t := by
  cases o <;> simp [andThen]

/-! ## The running cache -/

theorem lookup_insertPixel_same (p : Pixel) (s : State) : lookup (hashSlot p) (insertPixel p s) = p := by
  simp [lookup, insertPixel]

theorem lookup_insertPixel_other {k : Fin 64} {p : Pixel} (h : k ≠ hashSlot p) (s : State) :
    lookup k (insertPixel p s) = lookup k s := by
  have h' : (hashSlot p).val ≠ k.val := fun e => h (Fin.ext e.symm)
  simp [lookup, insertPixel, Vector.getElem_set_ne, h']

theorem lookup_insertPixel (k : Fin 64) (p : Pixel) (s : State) :
    lookup k (insertPixel p s) = if k = hashSlot p then p else lookup k s := by
  split
  · next h => rw [h, lookup_insertPixel_same]
  · next h => exact lookup_insertPixel_other h s

@[simp] theorem lookup_start (k : Fin 64) (s : State) : lookup k (start s) = Pixel.zero := by
  simp [lookup, start]

@[simp] theorem hashSlot_zero : hashSlot Pixel.zero = 0 := rfl
@[simp] theorem hashSlot_opaqueBlack : hashSlot Pixel.opaqueBlack = 53 := rfl

/-! ## Pixel output -/

/-- The bytes of a chunk depend on CHANNELS and the parameter alone. -/
theorem pixelChunk_congr {s s' : State} (hc : s.channels = s'.channels)
    (hd : s.decBadChannels = s'.decBadChannels) (p : Pixel) : pixelChunk s p = pixelChunk s' p := by
  simp only [pixelChunk, hc, hd]

@[simp] theorem pixelChunk_memWrite (bytes : List Byte) (s : State) (p : Pixel) :
    pixelChunk (memWrite bytes s) p = pixelChunk s p := rfl

theorem writePixel_eq_next {p : Pixel} {s t : State} :
    writePixel p s = .next t ↔ ∃ bytes, pixelChunk s p = some bytes ∧ t = memWrite bytes s := by
  cases h : pixelChunk s p <;> simp [writePixel, h, eq_comm]

theorem memWrite_memWrite (b c : List Byte) (s : State) :
    memWrite c (memWrite b s) = memWrite (b ++ c) s := by
  simp [memWrite, List.append_assoc, Nat.add_assoc]

@[simp] theorem memWrite_nil (s : State) : memWrite [] s = s := by
  simp [memWrite]

/-- Writing a pixel `n` times appends its chunk `n` times. -/
theorem writePixels_of_chunk {p : Pixel} {bytes : List Byte} (n : Nat) {s : State}
    (h : pixelChunk s p = some bytes) :
    writePixels n p s = .next (memWrite (List.replicate n bytes).flatten s) := by
  induction n generalizing s with
  | zero => simp [writePixels]
  | succ n ih =>
    have h1 : writePixel p s = .next (memWrite bytes s) := writePixel_eq_next.mpr ⟨bytes, h, rfl⟩
    rw [writePixels, h1, andThen_next, ih (by simpa using h), memWrite_memWrite]
    simp [List.replicate_succ]

/-- A pixel with no chunk is refused, once it is written at all. -/
theorem writePixels_of_no_chunk {p : Pixel} {n : Nat} {s : State} (hn : n ≠ 0)
    (h : pixelChunk s p = none) : writePixels n p s = .refused .decBadChannels := by
  cases n with
  | zero => exact absurd rfl hn
  | succ n => simp [writePixels, writePixel, h]

@[simp] theorem pixelChunk_reconstruct (len : Nat) (q : Pixel) (s : State) (p : Pixel) :
    pixelChunk (reconstruct len q s) p = pixelChunk s p := rfl

/-- What RGB, RGBA, DIFF and LUMA do where the chunk is defined. -/
theorem newPixel_of_chunk {len : Nat} {p : Pixel} {bytes : List Byte} {s : State}
    (h : pixelChunk s p = some bytes) :
    newPixel len p s = .next (insertPixel p (memWrite bytes (reconstruct len p s))) := by
  simp [newPixel, writePixel, h]

theorem newPixel_of_no_chunk {len : Nat} {p : Pixel} {s : State} (h : pixelChunk s p = none) :
    newPixel len p s = .refused .decBadChannels := by
  simp [newPixel, writePixel, h]

/-- What INDEX and RUN do where the chunk is defined. -/
theorem oldPixel_of_chunk {n : Nat} {p : Pixel} {bytes : List Byte} {s : State}
    (h : pixelChunk s p = some bytes) :
    oldPixel n p s = .next (memWrite (List.replicate n bytes).flatten (reconstruct 1 p s)) :=
  writePixels_of_chunk n h

theorem oldPixel_of_no_chunk {n : Nat} {p : Pixel} {s : State} (hn : n ≠ 0) (h : pixelChunk s p = none) :
    oldPixel n p s = .refused .decBadChannels :=
  writePixels_of_no_chunk hn h

theorem newPixel_eq_next {len : Nat} {p : Pixel} {s t : State} :
    newPixel len p s = .next t ↔ ∃ bytes, pixelChunk s p = some bytes ∧
      t = insertPixel p (memWrite bytes (reconstruct len p s)) := by
  cases h : pixelChunk s p with
  | none => simp [newPixel_of_no_chunk h]
  | some bytes => simp [newPixel_of_chunk h, eq_comm]

theorem oldPixel_eq_next {n : Nat} {p : Pixel} {s t : State} (hn : n ≠ 0) :
    oldPixel n p s = .next t ↔ ∃ bytes, pixelChunk s p = some bytes ∧
      t = memWrite (List.replicate n bytes).flatten (reconstruct 1 p s) := by
  cases h : pixelChunk s p with
  | none => simp [oldPixel_of_no_chunk hn h]
  | some bytes => simp [oldPixel_of_chunk h, eq_comm]

/-- Three or four channels: a chunk is defined. -/
theorem pixelChunk_isSome {s : State} (h : channelsDefined s) (p : Pixel) :
    ∃ bytes, pixelChunk s p = some bytes ∧ bytes.length = s.channels.toNat := by
  rcases h with h | h <;> simp [pixelChunk, h]

/-! ## Pixel input -/

/-- The pixel whose chunk lies at RP (42_encoder.md R161). -/
theorem readPixel_of_three {s : State} (hc : s.channels = 3) (hl : s.rp + 3 ≤ s.srcLen) :
    readPixel s = .next
      (takePixel 3 ⟨s.src.read s.rp, s.src.read (s.rp + 1), s.src.read (s.rp + 2), 255⟩ s) := by
  simp [readPixel, hc, hl]

theorem readPixel_of_four {s : State} (hc : s.channels = 4) (hl : s.rp + 4 ≤ s.srcLen) :
    readPixel s = .next
      (takePixel 4 ⟨s.src.read s.rp, s.src.read (s.rp + 1), s.src.read (s.rp + 2), s.src.read (s.rp + 3)⟩ s) := by
  simp [readPixel, hc, hl]

/-- What reading a pixel chunk can do, where it answers a next state. -/
theorem readPixel_eq_next {s t : State} (h : readPixel s = .next t) :
    channelsDefined s ∧ s.rp + s.channels.toNat ≤ s.srcLen ∧
      ∃ p, t = takePixel s.channels.toNat p s ∧ (s.channels = 3 → p.a = 255) := by
  unfold readPixel at h
  split at h
  · next hc =>
    split at h
    · next hl =>
      cases h
      refine ⟨.inl hc, by simpa [hc] using hl,
        ⟨⟨s.src.read s.rp, s.src.read (s.rp + 1), s.src.read (s.rp + 2), 255⟩, ?_, fun _ => rfl⟩⟩
      rw [hc]; rfl
    · cases h
  · next hc3 =>
    split at h
    · next hc =>
      split at h
      · next hl =>
        cases h
        refine ⟨.inr hc, by simpa [hc] using hl,
          ⟨⟨s.src.read s.rp, s.src.read (s.rp + 1), s.src.read (s.rp + 2), s.src.read (s.rp + 3)⟩, ?_,
            fun h3 => absurd h3 hc3⟩⟩
        rw [hc]; rfl
      · cases h
    · cases h

end Sys2Proof.Machine
end

