-- ==== Sys2Proof/Laws/PerInstr.lean ====
section
/-! SUPPORT. Families of statements about an instruction as syntax, one lemma per constructor. -/

namespace Sys2Proof.Laws

/-- An instruction's bytes are as many as its length says (30_encoding.md R99). -/
def EncodeLength.Statement (i : Instr) : Prop := (encode i).length = i.length

theorem EncodeLength.rgb (r g b : Byte) : EncodeLength.Statement (.rgb r g b) := rfl
theorem EncodeLength.rgba (r g b a : Byte) : EncodeLength.Statement (.rgba r g b a) := rfl
theorem EncodeLength.index (i : Fin 64) : EncodeLength.Statement (.index i) := rfl
theorem EncodeLength.diff (dr dg db : Int) : EncodeLength.Statement (.diff dr dg db) := rfl
theorem EncodeLength.luma (dg drg dbg : Int) : EncodeLength.Statement (.luma dg drg dbg) := rfl
theorem EncodeLength.run (n : Nat) : EncodeLength.Statement (.run n) := rfl
theorem EncodeLength.hdr (w h : Word32) (c cs : Byte) : EncodeLength.Statement (.hdr w h c cs) := rfl
theorem EncodeLength.endMarker : EncodeLength.Statement .endMarker := rfl

end Sys2Proof.Laws
end

