-- ==== Sys2Proof/Laws/Step.lean ====
section
/-! SUPPORT. What one step can do, said once: whose move it is, what an encode call does in each of its
phases, what a decode call does with what stands at RP, and what a decoded or emitted instruction
does. -/

namespace Sys2Proof.Machine

/-! ## Whose move it is -/

theorem step_of_enc {s : State} (h : s.status = .running) (hm : s.mode = .enc) : step s = encodeMove s := by
  simp [step, move, h, hm]

theorem step_of_dec {s : State} (h : s.status = .running) (hm : s.mode = .dec) : step s = decodeMove s := by
  simp [step, move, h, hm]

theorem step_of_quiescent {s : State} (h : s.status ≠ .running) : step s = quiescentMove s := by
  unfold step move
  split <;> first | rfl | contradiction

theorem step_eq_next {s t : State} (h : step s = .next t) :
    (s.status = .running ∧ s.mode = .enc ∧ encodeMove s = .next t) ∨
    (s.status = .running ∧ s.mode = .dec ∧ decodeMove s = .next t) ∨
    (s.status ≠ .running ∧ s.host = [] ∧ t = s) ∨
    (s.status ≠ .running ∧ ∃ m ms, s.host = m :: ms ∧ t = hostMove m { s with host := ms }) := by
  by_cases hs : s.status = .running
  · cases hm : s.mode with
    | enc => exact .inl ⟨hs, rfl, by rwa [step_of_enc hs hm] at h⟩
    | dec => exact .inr (.inl ⟨hs, rfl, by rwa [step_of_dec hs hm] at h⟩)
  · rw [step_of_quiescent hs] at h
    unfold quiescentMove at h
    split at h
    · next hh => cases h; exact .inr (.inr (.inl ⟨hs, hh, rfl⟩))
    · next m ms hh => cases h; exact .inr (.inr (.inr ⟨hs, m, ms, hh, rfl⟩))

/-! ## An encode call -/

/-- An instruction emitted: bytes on the sink, RUN cleared by RUN, the call ended by END. -/
theorem exec_of_enc {s : State} (h : s.mode = .enc) (i : Instr) :
    exec i s = .next (match i with
      | .run n => emitRun n s
      | .endMarker => finish (emit .endMarker s)
      | .rgb .. | .rgba .. | .index .. | .diff .. | .luma .. | .hdr .. => emit i s) := by
  cases i <;> simp [exec, execRgb, execRgba, execIndex, execDiff, execLuma, execRun, execHdr, execEnd, h]

theorem continueRun_of_enc {s : State} (h : s.mode = .enc) :
    continueRun s = .next (if s.run + 1 = Config.runMax ∨ s.rp = s.srcLen
      then emitRun (s.run + 1).toNat (countPixel s) else countPixel s) := by
  unfold continueRun
  dsimp only
  rw [countPixel_run, countPixel_rp, countPixel_srcLen]
  split
  · rw [exec_of_enc (by exact h)]
  · rfl

theorem flushRun_of_enc {s : State} (h : s.mode = .enc) :
    flushRun s = .next (if s.run = 0 then s else emitRun s.run.toNat s) := by
  unfold flushRun
  split
  · rfl
  · rw [exec_of_enc h]

/-- The miss path never selects RUN, INDEX, HDR or END. -/
theorem missOpcode_cases (px prev : Pixel) :
    (missOpcode px prev = .rgba px.r px.g px.b px.a ∧ (diffs px prev).da ≠ 0) ∨
    (missOpcode px prev = .diff (diffs px prev).dr (diffs px prev).dg (diffs px prev).db ∧
      (diffs px prev).da = 0 ∧ fitsDiff (diffs px prev) = true) ∨
    (missOpcode px prev = .luma (diffs px prev).dg ((diffs px prev).dr - (diffs px prev).dg)
        ((diffs px prev).db - (diffs px prev).dg) ∧
      (diffs px prev).da = 0 ∧ fitsDiff (diffs px prev) = false ∧ fitsLuma (diffs px prev) = true) ∨
    (missOpcode px prev = .rgb px.r px.g px.b ∧
      (diffs px prev).da = 0 ∧ fitsDiff (diffs px prev) = false ∧ fitsLuma (diffs px prev) = false) := by
  unfold missOpcode
  dsimp only
  by_cases ha : (diffs px prev).da = 0
  · by_cases hd : fitsDiff (diffs px prev) = true
    · simp [ha, hd]
    · by_cases hl : fitsLuma (diffs px prev) = true
      · simp [ha, hd, hl]
      · simp [ha, hd, hl]
  · simp [ha]

theorem exec_missOpcode {s : State} (h : s.mode = .enc) (px prev : Pixel) :
    exec (missOpcode px prev) s = .next (emit (missOpcode px prev) s) := by
  rcases missOpcode_cases px prev with ⟨e, -⟩ | ⟨e, -⟩ | ⟨e, -⟩ | ⟨e, -⟩ <;> rw [e, exec_of_enc h]

theorem codePixel_of_enc {s : State} (h : s.mode = .enc) :
    codePixel s = .next (if lookup (hashSlot s.px) s = s.px then emit (.index (hashSlot s.px)) s
      else emit (missOpcode s.px s.prev) (insertPixel s.px s)) := by
  unfold codePixel
  split
  · rw [exec_of_enc h]
  · rw [exec_missOpcode (by simpa using h)]

/-- A step of the pass after its pixel is read, a run continuation. -/
theorem resolvePixel_of_eq {s : State} (h : s.mode = .enc) (hp : s.px = s.prev) :
    resolvePixel s = .next (settlePixel (if s.run + 1 = Config.runMax ∨ s.rp = s.srcLen
      then emitRun (s.run + 1).toNat (countPixel s) else countPixel s)) := by
  rw [resolvePixel, if_pos hp, continueRun_of_enc h, andThen_next]

/-- A step of the pass after its pixel is read, a differing pixel. -/
theorem resolvePixel_of_ne {s u : State} (h : s.mode = .enc) (hp : s.px ≠ s.prev)
    (hu : u = if s.run = 0 then s else emitRun s.run.toNat s) :
    resolvePixel s = .next (settlePixel (if lookup (hashSlot s.px) s = s.px then emit (.index (hashSlot s.px)) u
      else emit (missOpcode s.px s.prev) (insertPixel s.px u))) := by
  have e : u.mode = s.mode ∧ u.px = s.px ∧ u.prev = s.prev ∧ lookup (hashSlot s.px) u = lookup (hashSlot s.px) s := by
    subst hu
    split <;> simp
  rw [resolvePixel, if_neg hp, flushRun_of_enc h, andThen_next, ← hu, codePixel_of_enc (by rw [e.1, h]),
    andThen_next, e.2.1, e.2.2.1, e.2.2.2]

/-- What a move of an encode call can do: fail before its header, append the header, resolve the pixel at RP
(its run, a cache hit or a miss), or append the trailer and end. -/
theorem encodeMove_eq_next {s t : State} (hm : s.mode = .enc) (h : encodeMove s = .next t) :
    (s.snkLen = 0 ∧ ∃ f, (f = .invalidChannels ∨ f = .sizeMismatch) ∧ t = raise f s) ∨
    (s.snkLen = 0 ∧ channelsDefined s ∧ s.srcLen = s.width.toNat * s.height.toNat * s.channels.toNat ∧
      t = emit (.hdr s.width s.height s.channels s.colorspace) s) ∨
    (s.snkLen ≠ 0 ∧ s.rp < s.srcLen ∧ channelsDefined s ∧ s.rp + s.channels.toNat ≤ s.srcLen ∧
      ∃ p, readPixel s = .next (takePixel s.channels.toNat p s) ∧ (s.channels = 3 → p.a = 255) ∧
        resolvePixel (takePixel s.channels.toNat p s) = .next t) ∨
    (s.snkLen ≠ 0 ∧ s.srcLen ≤ s.rp ∧ t = finish (emit .endMarker s)) := by
  unfold encodeMove at h
  split at h
  · next h0 =>
    unfold beginEncode at h
    split at h
    · cases h
      exact .inl ⟨h0, _, .inl rfl, rfl⟩
    split at h
    · cases h
      exact .inl ⟨h0, _, .inr rfl, rfl⟩
    · next hc hl =>
      rw [exec_of_enc hm] at h
      cases h
      exact .inr (.inl ⟨h0, not_not.mp hc, not_not.mp hl, rfl⟩)
  · next h0 =>
    split at h
    · next hlt =>
      obtain ⟨u, hr, h⟩ := andThen_eq_next.mp h
      obtain ⟨hc, hle, p, rfl, ha⟩ := readPixel_eq_next hr
      exact .inr (.inr (.inl ⟨h0, hlt, hc, hle, p, hr, ha, h⟩))
    · next hge =>
      rw [exec_of_enc hm] at h
      cases h
      exact .inr (.inr (.inr ⟨h0, Nat.not_lt.mp hge, rfl⟩))

/-! ## A decode call -/

theorem decodeMove_of_ok {s : State} {i : Instr} {rest : List Byte}
    (h : decode (position s) (window s) = .ok (i, rest)) : decodeMove s = exec i s := by
  simp [decodeMove, h]

theorem decodeMove_of_error {s : State} {e : Reject}
    (h : decode (position s) (window s) = .error e) :
    decodeMove s = .next (raise (Reject.failure e) s) := by
  simp [decodeMove, h]

/-- The window holds what remains of SRC, 22 bytes at most. -/
@[simp] theorem length_window (s : State) : (window s).length = min 22 (s.srcLen - s.rp) := by
  simp [window, Config.minStream]

theorem exec_dec_rgb {s : State} (h : s.mode = .dec) (r g b : Byte) :
    exec (.rgb r g b) s = newPixel 4 ⟨r, g, b, s.prev.a⟩ s := by simp [exec, execRgb, h]

theorem exec_dec_rgba {s : State} (h : s.mode = .dec) (r g b a : Byte) :
    exec (.rgba r g b a) s = newPixel 5 ⟨r, g, b, a⟩ s := by simp [exec, execRgba, h]

theorem exec_dec_index {s : State} (h : s.mode = .dec) (k : Fin 64) :
    exec (.index k) s = oldPixel 1 (lookup k s) s := by simp [exec, execIndex, h]

theorem exec_dec_diff {s : State} (h : s.mode = .dec) (dr dg db : Int) :
    exec (.diff dr dg db) s =
      newPixel 1 ⟨add8 s.prev.r dr, add8 s.prev.g dg, add8 s.prev.b db, s.prev.a⟩ s := by
  simp [exec, execDiff, h]

theorem exec_dec_luma {s : State} (h : s.mode = .dec) (dg drg dbg : Int) :
    exec (.luma dg drg dbg) s =
      newPixel 2 ⟨add8 s.prev.r (dg + drg), add8 s.prev.g dg, add8 s.prev.b (dg + dbg), s.prev.a⟩ s := by
  simp [exec, execLuma, h]

theorem exec_dec_run {s : State} (h : s.mode = .dec) (n : Nat) :
    exec (.run n) s = oldPixel n s.prev s := by simp [exec, execRun, h]

theorem exec_dec_hdr {s : State} (h : s.mode = .dec) (w hh : Word32) (c cs : Byte) :
    exec (.hdr w hh c cs) s = .next (loadHeader w hh c cs s) := by simp [exec, execHdr, h]

theorem exec_dec_endMarker {s : State} (h : s.mode = .dec) :
    exec .endMarker s = finishDecode s := by simp [exec, execEnd, h]

theorem finishDecode_eq_next {s t : State} (h : finishDecode s = .next t) : t = finish s := by
  unfold finishDecode at h
  split at h
  · cases h; rfl
  · split at h <;> cases h
    rfl

/-- What a decoded instruction can do, where it answers a next state: reconstruct a new pixel and insert
it, repeat a pixel it holds, load the header, or end the call. -/
theorem exec_dec_eq_next {s t : State} {i : Instr} (h : s.mode = .dec) (hi : i.WellFormed)
    (ht : exec i s = .next t) :
    (∃ p bytes, i.position = .boundary ∧ i ≠ .endMarker ∧ pixelChunk s p = some bytes ∧
      t = insertPixel p (memWrite bytes (reconstruct i.length p s))) ∨
    (∃ n p bytes, ((∃ k, i = .index k ∧ n = 1 ∧ p = lookup k s) ∨ (i = .run n ∧ p = s.prev)) ∧
      n ≠ 0 ∧ n ≤ 62 ∧ pixelChunk s p = some bytes ∧
      t = memWrite (List.replicate n bytes).flatten (reconstruct 1 p s)) ∨
    (∃ w hh c cs, i = .hdr w hh c cs ∧ t = loadHeader w hh c cs s) ∨
    (i = .endMarker ∧ t = finish s) := by
  cases i with
  | rgb r g b =>
    rw [exec_dec_rgb h, newPixel_eq_next] at ht
    obtain ⟨bytes, hb, rfl⟩ := ht
    exact .inl ⟨_, bytes, rfl, by simp, hb, rfl⟩
  | rgba r g b a =>
    rw [exec_dec_rgba h, newPixel_eq_next] at ht
    obtain ⟨bytes, hb, rfl⟩ := ht
    exact .inl ⟨_, bytes, rfl, by simp, hb, rfl⟩
  | index k =>
    rw [exec_dec_index h, oldPixel_eq_next Nat.one_ne_zero] at ht
    obtain ⟨bytes, hb, rfl⟩ := ht
    exact .inr (.inl ⟨1, _, bytes, .inl ⟨k, rfl, rfl, rfl⟩, by omega, by omega, hb, rfl⟩)
  | diff dr dg db =>
    rw [exec_dec_diff h, newPixel_eq_next] at ht
    obtain ⟨bytes, hb, rfl⟩ := ht
    exact .inl ⟨_, bytes, rfl, by simp, hb, rfl⟩
  | luma dg drg dbg =>
    rw [exec_dec_luma h, newPixel_eq_next] at ht
    obtain ⟨bytes, hb, rfl⟩ := ht
    exact .inl ⟨_, bytes, rfl, by simp, hb, rfl⟩
  | run n =>
    simp only [Instr.WellFormed, Instr.wellFormed, decide_eq_true_eq] at hi
    rw [exec_dec_run h, oldPixel_eq_next (show n ≠ 0 by omega)] at ht
    obtain ⟨bytes, hb, rfl⟩ := ht
    exact .inr (.inl ⟨n, _, bytes, .inr ⟨rfl, rfl⟩, by omega, hi.2, hb, rfl⟩)
  | hdr w hh c cs =>
    rw [exec_dec_hdr h] at ht
    cases ht
    exact .inr (.inr (.inl ⟨w, hh, c, cs, rfl, rfl⟩))
  | endMarker =>
    rw [exec_dec_endMarker h] at ht
    exact .inr (.inr (.inr ⟨rfl, finishDecode_eq_next ht⟩))

end Sys2Proof.Machine
end

