-- ==== Sys2Proof/Tests/Slice0.lean ====
section
/-! SUPPORT. Tests. The expected values are those of spec/95_test_vectors.md (V<n>) or are written out by
hand from the rule named. The witnesses at the end meet the hypotheses of the obligations. -/

namespace Sys2Proof.Tests

open Sys2Proof.Machine

/-! ## Well-formedness: each check refuses an ill-formed term (30_encoding.md R100, R108) -/

theorem test_wellFormed_diff_range :
    ¬(Instr.diff 2 0 0).WellFormed ∧ ¬(Instr.diff (-3) 0 0).WellFormed ∧ ¬(Instr.diff 0 2 0).WellFormed ∧
    ¬(Instr.diff 0 (-3) 0).WellFormed ∧ ¬(Instr.diff 0 0 2).WellFormed ∧ ¬(Instr.diff 0 0 (-3)).WellFormed := by
  decide

theorem test_wellFormed_luma_range :
    ¬(Instr.luma 32 0 0).WellFormed ∧ ¬(Instr.luma (-33) 0 0).WellFormed ∧ ¬(Instr.luma 0 8 0).WellFormed ∧
    ¬(Instr.luma 0 (-9) 0).WellFormed ∧ ¬(Instr.luma 0 0 8).WellFormed ∧ ¬(Instr.luma 0 0 (-9)).WellFormed := by
  decide

theorem test_wellFormed_run_range : ¬(Instr.run 0).WellFormed ∧ ¬(Instr.run 63).WellFormed := by decide

theorem test_wellFormed_boundary_operands :
    (Instr.diff (-2) 1 (-2)).WellFormed ∧ (Instr.luma (-32) 7 (-8)).WellFormed ∧
    (Instr.luma 31 (-8) 7).WellFormed ∧ (Instr.run 1).WellFormed ∧ (Instr.run 62).WellFormed := by decide

/-! ## Decoding: words written out bit by bit from the encodings (30_encoding.md R93 to R98, R106, R107) -/

/-- RGB: `11111110 rrrrrrrr gggggggg bbbbbbbb` (R97). -/
theorem test_decode_rgb :
    decode .boundary [0b11111110, 0b11001000, 0b00010100, 0b00011110, 0, 0, 0, 0] =
      .ok (.rgb 200 20 30, [0, 0, 0, 0]) := by decide

/-- RGBA: `11111111 rrrrrrrr gggggggg bbbbbbbb aaaaaaaa` (R98). -/
theorem test_decode_rgba :
    decode .boundary [0b11111111, 0b00001010, 0b00010100, 0b00011110, 0b10000000, 0, 0, 0] =
      .ok (.rgba 10 20 30 128, [0, 0, 0]) := by decide

/-- INDEX: `00iiiiii` (R93). -/
theorem test_decode_index :
    decode .boundary [0b00100101, 0, 0, 0, 0, 0, 0, 0] = .ok (.index 37, [0, 0, 0, 0, 0, 0, 0]) := by decide

/-- DIFF: `01rrggbb`, bias 2 (R94). -/
theorem test_decode_diff :
    decode .boundary [0b01110011, 0, 0, 0, 0, 0, 0, 0] = .ok (.diff 1 (-2) 1, [0, 0, 0, 0, 0, 0, 0]) := by decide

/-- LUMA: `10gggggg rrrrbbbb`, biases 32 and 8 (R95). -/
theorem test_decode_luma :
    decode .boundary [0b10101010, 0b11010011, 0, 0, 0, 0, 0, 0] =
      .ok (.luma 10 5 (-5), [0, 0, 0, 0, 0, 0]) := by decide

/-- RUN: `11nnnnnn`, the length minus one (R96); `fd` is the longest, `fe` is RGB (R92). -/
theorem test_decode_run :
    decode .boundary [0b11000000, 0, 0, 0, 0, 0, 0, 0] = .ok (.run 1, [0, 0, 0, 0, 0, 0, 0]) ∧
    decode .boundary [0b11111101, 0, 0, 0, 0, 0, 0, 0] = .ok (.run 62, [0, 0, 0, 0, 0, 0, 0]) := by decide

/-- HDR: the magic, two big-endian words, two bytes (R106); the bytes of V25. -/
theorem test_decode_hdr :
    decode .first [0x71, 0x6f, 0x69, 0x66, 1, 2, 3, 4, 0, 0, 0, 0, 4, 0xff, 0, 0, 0, 0, 0, 0, 0, 1] =
      .ok (.hdr 0x01020304 0 4 255, [0, 0, 0, 0, 0, 0, 0, 1]) := by decide

/-- END: the trailer, looked for before the tag (R107). -/
theorem test_decode_endMarker :
    decode .boundary [0, 0, 0, 0, 0, 0, 0, 1] = .ok (.endMarker, []) ∧
    decode .boundary [0, 0, 0, 0, 0, 0, 0, 0, 1] = .ok (.index 0, [0, 0, 0, 0, 0, 0, 0, 1]) := by decide

/-- V72, V73: the length is tested before the magic. -/
theorem test_decode_rejects :
    decode .first [0, 1, 2, 3, 4] = .error .tooShort ∧
    decode .first [0x71, 0x6f, 0x69, 0x67, 0, 0, 0, 0, 0, 0, 0, 0, 3, 0, 0, 0, 0, 0, 0, 0, 0, 1] =
      .error .badMagic ∧
    decode .boundary [0xc0, 0, 0, 0, 0, 0, 0] = .error .missingEndMarker := by decide

/-- The opcode table's numbering (log 18). -/
theorem test_decodeTableWord :
    decodeTableWord 8 0x25 = some (.index 37) ∧ decodeTableWord 16 0xd3aa = some (.luma 10 5 (-5)) ∧
    decodeTableWord 32 0x1e14c8fe = some (.rgb 200 20 30) ∧ decodeTableWord 32 0x716f6966 = some (.hdr 0 0 0 0) ∧
    decodeTableWord 112 0x66696f71 = some (.hdr 0 0 0 0) ∧ decodeTableWord 64 1 = some .endMarker ∧
    decodeTableWord 64 (2 ^ 56) = some .endMarker := by decide

/-! ## The hash (V1 to V22) -/

theorem test_hash :
    hashSlot ⟨0, 0, 0, 0⟩ = 0 ∧ hashSlot ⟨0, 0, 0, 255⟩ = 53 ∧ hashSlot ⟨255, 255, 255, 255⟩ = 38 ∧
    hashSlot ⟨255, 0, 0, 0⟩ = 61 ∧ hashSlot ⟨0, 255, 0, 0⟩ = 59 ∧ hashSlot ⟨0, 0, 255, 0⟩ = 57 ∧
    hashSlot ⟨0, 0, 0, 1⟩ = 11 ∧ hashSlot ⟨200, 100, 50, 255⟩ = 31 := by decide

/-! ## Small states -/

/-- The next state of an outcome, if it is one. -/
def answer (o : Result) : Option State :=
  match o with
  | .next s => some s
  | .fault _ => none
  | .refused _ => none

/-- A decode call that stands at its first opcode, right behind a header. -/
def decoder (channels : Byte) (prev : Pixel) (bytes : List Byte) : State :=
  { State.reset with
    status := .running
    mode := .dec
    rp := 14
    channels := channels
    prev := prev
    src := Memory.ofList 14 bytes
    srcLen := 14 + bytes.length }

/-- An encode call that stands at its first pixel, right behind its header. -/
def encoder (channels : Byte) (prev : Pixel) (run : BitVec 6) (width : Word32) (pixels : List Byte) : State :=
  { State.reset with
    status := .running
    channels := channels
    width := width
    height := 1
    prev := prev
    run := run
    snk := List.replicate 14 0
    snkLen := 14
    src := Memory.ofList 0 pixels
    srcLen := pixels.length }

/-- PREV, what the call appended behind `n` bytes, and RP. -/
def seen (n : Nat) (o : Result) : Option (Pixel × List Byte × Nat) :=
  (answer o).map fun t => (t.prev, t.snk.drop n, t.rp)

/-- A slot of CACHE. -/
def slot (k : Fin 64) (o : Result) : Option Pixel := (answer o).map (lookup k)

/-- The pixel {10,20,30,255} of V32. -/
def grey : Pixel := ⟨10, 20, 30, 255⟩

/-! ## One decoded instruction each -/

/-- V66: alpha kept. -/
theorem test_step_rgb :
    seen 0 (step (decoder 4 ⟨1, 2, 3, 128⟩ [0xfe, 9, 8, 7, 0, 0, 0, 0, 0, 0, 0, 1])) =
      some (⟨9, 8, 7, 128⟩, [9, 8, 7, 0x80], 18) ∧
    slot 52 (step (decoder 4 ⟨1, 2, 3, 128⟩ [0xfe, 9, 8, 7, 0, 0, 0, 0, 0, 0, 0, 1])) = some ⟨9, 8, 7, 128⟩ := by
  decide

/-- V65. -/
theorem test_step_rgba :
    seen 0 (step (decoder 4 ⟨0, 0, 0, 255⟩ [0xff, 1, 2, 3, 0x80, 0, 0, 0, 0, 0, 0, 0, 1])) =
      some (⟨1, 2, 3, 128⟩, [1, 2, 3, 0x80], 19) ∧
    slot 34 (step (decoder 4 ⟨0, 0, 0, 255⟩ [0xff, 1, 2, 3, 0x80, 0, 0, 0, 0, 0, 0, 0, 1])) =
      some ⟨1, 2, 3, 128⟩ := by decide

/-- V59: an empty slot is the all-zero pixel, and CACHE is not written. -/
theorem test_step_index :
    seen 0 (step (decoder 4 ⟨0, 0, 0, 255⟩ [0x25, 0, 0, 0, 0, 0, 0, 0, 1])) =
      some (⟨0, 0, 0, 0⟩, [0, 0, 0, 0], 15) ∧
    (answer (step (decoder 4 ⟨0, 0, 0, 255⟩ [0x25, 0, 0, 0, 0, 0, 0, 0, 1]))).map (·.cache) =
      some State.reset.cache := by decide

/-- V61: the additions wrap. -/
theorem test_step_diff :
    seen 0 (step (decoder 3 ⟨0, 0, 0, 255⟩ [0x40, 0, 0, 0, 0, 0, 0, 0, 1])) =
      some (⟨254, 254, 254, 255⟩, [0xfe, 0xfe, 0xfe], 15) ∧
    slot 23 (step (decoder 3 ⟨0, 0, 0, 255⟩ [0x40, 0, 0, 0, 0, 0, 0, 0, 1])) = some ⟨254, 254, 254, 255⟩ := by
  decide

/-- V63. -/
theorem test_step_luma :
    seen 0 (step (decoder 3 ⟨0, 0, 0, 255⟩ [0x80, 0, 0, 0, 0, 0, 0, 0, 0, 1])) =
      some (⟨216, 224, 216, 255⟩, [0xd8, 0xe0, 0xd8], 16) ∧
    slot 5 (step (decoder 3 ⟨0, 0, 0, 255⟩ [0x80, 0, 0, 0, 0, 0, 0, 0, 0, 1])) = some ⟨216, 224, 216, 255⟩ := by
  decide

/-- V58. -/
theorem test_step_run :
    seen 0 (step (decoder 4 ⟨0, 0, 0, 255⟩ [0xc2, 0, 0, 0, 0, 0, 0, 0, 1])) =
      some (⟨0, 0, 0, 255⟩, [0, 0, 0, 0xff, 0, 0, 0, 0xff, 0, 0, 0, 0xff], 15) ∧
    (answer (step (decoder 4 ⟨0, 0, 0, 255⟩ [0xc2, 0, 0, 0, 0, 0, 0, 0, 1]))).map (·.cache) =
      some State.reset.cache := by decide

/-- The stream of V25. -/
def emptyImage : List Byte :=
  [0x71, 0x6f, 0x69, 0x66, 1, 2, 3, 4, 0, 0, 0, 0, 4, 0xff, 0, 0, 0, 0, 0, 0, 0, 1]

/-- V26, the parse: the most significant byte of WIDTH comes first. -/
theorem test_step_hdr :
    (answer (step (decodeCall emptyImage State.reset))).map
      (fun t => (t.width, t.height, t.channels, t.colorspace, t.rp)) = some (16909060, 0, 4, 255, 14) := by
  decide

/-- V26, the end: RP stays at the trailer. -/
theorem test_step_endMarker :
    (answer (step (decoder 4 ⟨0, 0, 0, 255⟩ [0, 0, 0, 0, 0, 0, 0, 1]))).map
      (fun t => (t.status, t.rp, t.snkLen)) = some (.done, 14, 0) := by decide

/-! ## One encode step each -/

/-- V49. -/
theorem test_encode_rgb :
    seen 14 (step (encoder 4 grey 0 2 [200, 20, 30, 255, 0, 0, 0, 0])) =
      some (⟨200, 20, 30, 255⟩, [0xfe, 0xc8, 0x14, 0x1e], 4) := by decide

/-- V50. -/
theorem test_encode_rgba :
    seen 14 (step (encoder 4 grey 0 2 [10, 20, 30, 128, 0, 0, 0, 0])) =
      some (⟨10, 20, 30, 128⟩, [0xff, 0x0a, 0x14, 0x1e, 0x80], 4) := by decide

/-- V41: the all-zero pixel hits its empty slot. -/
theorem test_encode_index :
    seen 14 (step (encoder 4 ⟨0, 0, 0, 255⟩ 0 2 [0, 0, 0, 0, 1, 1, 1, 1])) = some (⟨0, 0, 0, 0⟩, [0], 4) := by
  decide

/-- V55: the open run goes out first. -/
theorem test_encode_run_then_diff :
    seen 14 (step (encoder 4 grey 5 2 [11, 21, 31, 255, 0, 0, 0, 0])) =
      some (⟨11, 21, 31, 255⟩, [0xc4, 0x7f], 4) := by decide

/-- V53: the differences wrap. -/
theorem test_encode_luma :
    seen 14 (step (encoder 4 ⟨250, 250, 250, 255⟩ 0 2 [4, 10, 2, 255, 0, 0, 0, 0])) =
      some (⟨4, 10, 2, 255⟩, [0xb0, 0x20], 4) := by decide

/-- V56: a run is flushed at 62. -/
theorem test_encode_run_limit :
    seen 14 (step (encoder 4 grey 61 2 [10, 20, 30, 255, 0, 0, 0, 0])) = some (grey, [0xfd], 4) := by decide

/-- V25: header and trailer. -/
theorem test_encode_frame :
    (answer (core.run 2 (encodeCall 0x01020304 0 4 255 [] State.reset))).map hostView =
      some (.done 0x01020304 0 4 255 emptyImage) := by decide

/-- V75 (R274, R275, R277): CHANNELS is tested before the size. -/
theorem test_encode_failures :
    (answer (step (encodeCall 1 1 5 0 [] State.reset))).map hostView = some (.failed 4) ∧
    (answer (step (encodeCall 1 1 3 0 [1, 2] State.reset))).map hostView = some (.failed 5) := by decide

/-! ## What the host reads (10_state.md R38) -/

/-- V26: the result in DONE, which a MODE rewritten there does not change. -/
theorem test_host_reads_result :
    (answer (core.run 2 (decodeCall emptyImage State.reset))).map hostReadings =
      some ⟨.dec, some 0x01020304, some 0, some 4, some 255, 22, 0, .done, 0, some []⟩ ∧
    (answer (core.run 2 (decodeCall emptyImage State.reset))).map
      (fun t => hostView (hostMove (.setMode .enc) t)) = some (.done 0x01020304 0 4 255 []) := by decide

/-- A running call: the sink and a descriptor not yet parsed are withheld (R42, R248). -/
theorem test_host_reads_no_result :
    hostReadings (decodeCall emptyImage State.reset) =
      ⟨.dec, none, none, none, none, 22, 0, .running, 0, none⟩ := by decide

/-- The descriptor readings of an outcome after more moves of the host. -/
def descriptorAfter (o : Result) (ms : List HostMove) :
    Option (Option Word32 × Option Word32 × Option Byte × Option Byte) :=
  (answer o).map fun t =>
    let r := hostReadings (ms.foldl (fun t m => hostMove m t) t)
    (r.width, r.height, r.channels, r.colorspace)

/-- A decode call with a parsed header that ends in MissingEndMarker. -/
def failedDecode : Result :=
  core.run 3 (decodeCall (emptyImage.take 14 ++ [0xc0, 0, 0, 0, 0, 0, 0, 0]) State.reset)

/-- A failed decode call, here with a parsed header, hides it for good (R280): a rewritten MODE or a power-on
reset does not show it, and the host reads back what it writes itself. -/
theorem test_host_reads_after_failed_decode :
    (answer failedDecode).map hostView = some (.failed 3) ∧
    ∀ p ∈ [([], none), ([.setMode .enc], none), ([.setMode .enc, .powerOnReset], none), ([.setWidth 5], some 5)],
      descriptorAfter failedDecode p.1 = some (p.2, none, none, none) := by decide

/-- A failed encode call leaves the host its own descriptor, whatever it writes to MODE (R38). -/
theorem test_host_reads_after_failed_encode :
    descriptorAfter (step (encodeCall 1 2 5 7 [] State.reset)) [.setMode .dec] =
      some (some 1, some 2, some 5, some 7) := by decide

/-! ## The opcode table's words as the next instruction after reset (log 18) -/

theorem test_withFetchWord_index :
    answer (step (State.reset.withFetchWord 8 0x25)) =
      answer (exec (.index 37) (State.reset.withFetchWord 8 0x25)) := by decide

theorem test_withFetchWord_hdr :
    (answer (step (State.reset.withFetchWord 32 0x716f6966))).map (·.rp) = some 14 := by decide

/-! ## Witnesses -/

theorem next_of_answer {o : Result} (h : (answer o).isSome = true) : ∃ t, o = .next t := by
  cases o <;> first | exact ⟨_, rfl⟩ | cases h

theorem next_of_map {α : Type} {o : Result} {f : State → α} {a : α} (h : (answer o).map f = some a) :
    ∃ t, o = .next t ∧ f t = a := by
  cases o <;> simp [answer] at h
  exact ⟨_, rfl, h⟩

/-- A decode call at the opcode `bytes`, the trailer behind it. -/
def atOpcode (channels : Byte) (bytes : List Byte) : State :=
  decoder channels grey (bytes ++ [0, 0, 0, 0, 0, 0, 0, 1])

theorem witness_DecodeOfEncodeIsTheInstruction :
    (∃ rest, (Instr.hdr 0 0 0 0).WellFormed ∧ (Instr.hdr 0 0 0 0).position = .first ∧ 8 ≤ List.length (α := Byte) rest) ∧
    ∃ rest, (Instr.index 0).WellFormed ∧ isOpcode (.index 0) ∧ 8 ≤ (encode (.index 0) ++ rest).length ∧
      (encode (.index 0) ++ rest).take 8 ≠ Config.trailer :=
  ⟨⟨[0, 0, 0, 0, 0, 0, 0, 1], by decide⟩, ⟨[0, 0, 0, 0, 0, 0, 0, 1], by decide⟩⟩

theorem witness_DecodedBytesAreTheEncoding :
    ∃ i rest, decode .boundary [0, 0, 0, 0, 0, 0, 0, 1] = .ok (i, rest) := ⟨_, _, test_decode_endMarker.1⟩

/-- One tag at each end of every range of the table. -/
theorem witness_EveryTagSelectsAnOpcode :
    ∀ t ∈ ([0x00, 0x3f, 0x40, 0x7f, 0x80, 0xbf, 0xc0, 0xfd, 0xfe, 0xff] : List Byte),
      8 ≤ (t :: [0, 0, 0, 0, 0, 0, 0]).length ∧ (t :: [0, 0, 0, 0, 0, 0, 0]).take 8 ≠ Config.trailer := by decide

/-- Each clause of the rejections, at the lengths where they meet. -/
theorem witness_DecoderRejectsOnlyByItsThreeNames :
    decode .first (List.replicate 21 0) = .error .tooShort ∧
    decode .first (List.replicate 22 0) = .error .badMagic ∧
    decode .boundary (List.replicate 7 0) = .error .missingEndMarker ∧
    decode .boundary (List.replicate 8 0) = .ok (.index 0, List.replicate 7 0) := by decide

theorem witness_StepRunsDecodedInstruction :
    decoding (atOpcode 4 [0x25]) ∧ ∃ rest,
      decode (if (atOpcode 4 [0x25]).rp = 0 then .first else .boundary)
        ((atOpcode 4 [0x25]).src.slice (atOpcode 4 [0x25]).rp
          (min 22 ((atOpcode 4 [0x25]).srcLen - (atOpcode 4 [0x25]).rp))) = .ok (.index 37, rest) :=
  ⟨by decide, Config.trailer, by decide⟩

/-- One state for each of the three failures. -/
theorem witness_DecodeFailureEndsTheCall :
    ∀ p ∈ [(decodeCall [] State.reset, Reject.tooShort), (decodeCall (List.replicate 22 0) State.reset, .badMagic),
        (decoder 4 grey [0xc0], .missingEndMarker)],
      decoding p.1 ∧ decode (if p.1.rp = 0 then .first else .boundary)
        (p.1.src.slice p.1.rp (min 22 (p.1.srcLen - p.1.rp))) = .error p.2 := by decide

/-- Both sides of the length (V71, V26): the 21 bytes fail, the 22 do not. -/
theorem witness_ShortStreamIsTooShort :
    (answer (step (decodeCall (emptyImage.take 21) State.reset))).map hostView = some (.failed 1) ∧
    (answer (step (decodeCall emptyImage State.reset))).map hostView = some .running := by decide

/-- V72. -/
theorem witness_WrongMagicIsBadMagic :
    (answer (step (decodeCall (0x70 :: emptyImage.drop 1) State.reset))).map hostView = some (.failed 2) := by decide

/-- Seven bytes, and the eight of the trailer. -/
theorem witness_ShortTailIsMissingEndMarker :
    (decoding (decoder 4 grey [0, 0, 0, 0, 0, 0, 0]) ∧ (decoder 4 grey [0, 0, 0, 0, 0, 0, 0]).rp ≠ 0 ∧
      (answer (step (decoder 4 grey [0, 0, 0, 0, 0, 0, 0]))).map hostView = some (.failed 3)) ∧
    (decoding (decoder 4 grey [0, 0, 0, 0, 0, 0, 0, 1]) ∧
      (answer (step (decoder 4 grey [0, 0, 0, 0, 0, 0, 0, 1]))).map (·.status) = some .done) := by decide

/-- The byte clauses of the decoded instructions, at the ends of their ranges. -/
theorem witness_DecodedFields :
    (∀ t ∈ ([0x00, 0x3f] : List Byte), t.extractLsb' 6 2 = 0b00 ∧
      (t :: [0, 0, 0, 0, 0, 0, 0]).take 8 ≠ Config.trailer) ∧
    (∀ t ∈ ([0x40, 0x7f] : List Byte), t.extractLsb' 6 2 = 0b01) ∧
    (∀ t ∈ ([0x80, 0xbf] : List Byte), t.extractLsb' 6 2 = 0b10) ∧
    (∀ t ∈ ([0xc0, 0xfd] : List Byte), 0xc0 ≤ t.toNat ∧ t.toNat ≤ 0xfd) ∧
    8 ≤ (0 :: [0, 0, 0, 0, 0, 0, (0 : Byte)]).length ∧ 8 ≤ Config.trailer.length := by decide

/-- The hypotheses of DecodedRgb, DecodedRgba, DecodedIndex, DecodedDiff, DecodedLuma, DecodedRun,
DecodedHeader and DecodedEnd, for three channels and for four. -/
theorem witness_DecodedInstructions :
    ((decoder 3 grey []).mode = .dec ∧ channelsDefined (decoder 3 grey [])) ∧
    ((decoder 4 grey []).mode = .dec ∧ channelsDefined (decoder 4 grey [])) := by decide

theorem witness_DecodedOpcodeFrame :
    ∀ i ∈ [Instr.rgb 1 2 3, .rgba 1 2 3 4, .index 5, .diff 1 (-2) 1, .luma 10 5 (-5), .run 62],
      isOpcode i ∧ i.WellFormed ∧ (decoder 3 grey []).mode = .dec ∧
        (answer (exec i (decoder 3 grey []))).isSome = true := by decide

theorem witness_DecodedHeaderAndEndFrame :
    ∀ i ∈ [Instr.hdr 1 2 3 4, .endMarker],
      ¬isOpcode i ∧ (decoder 3 grey []).mode = .dec ∧ (answer (exec i (decoder 3 grey []))).isSome = true := by
  decide

/-- A decode call with a CHANNELS byte that has no rule, under a setting of DEC_BAD_CHANNELS. -/
def badChannels (d : Config.DecBadChannels) : State := { decoder 5 grey [] with decBadChannels := d }

theorem witness_BadChannelsAreRefusedByDefault :
    (Instr.run 1).position = .boundary ∧ (Instr.run 1).WellFormed ∧ (badChannels .refuse).mode = .dec ∧
      ¬channelsDefined (badChannels .refuse) ∧ (badChannels .refuse).decBadChannels = .refuse := by decide

theorem witness_BadChannelsAsFour :
    (Instr.run 1).position = .boundary ∧ (badChannels .as4).mode = .dec ∧ ¬channelsDefined (badChannels .as4) ∧
      (badChannels .as4).decBadChannels = .as4 ∧
      (answer (exec (.run 1) { badChannels .as4 with channels := 4 })).isSome = true := by decide

theorem witness_BadChannelsFaultAtTheTrailer :
    (badChannels .fault).mode = .dec ∧ ¬channelsDefined (badChannels .fault) ∧
      (badChannels .fault).decBadChannels = .fault ∧ isOpcode (.run 1) := by decide

theorem witness_EmissionAppendsTheEncoding : (encoder 4 grey 0 1 []).mode = .enc := rfl

theorem witness_InvalidChannelsFailsFirst :
    encoding (encodeCall 1 1 5 0 [] State.reset) ∧ (encodeCall 1 1 5 0 [] State.reset).snkLen = 0 ∧
      ¬channelsDefined (encodeCall 1 1 5 0 [] State.reset) := by decide

theorem witness_SizeMismatchFailsNext :
    encoding (encodeCall 1 1 3 0 [] State.reset) ∧ (encodeCall 1 1 3 0 [] State.reset).snkLen = 0 ∧
      channelsDefined (encodeCall 1 1 3 0 [] State.reset) ∧
      (encodeCall 1 1 3 0 [] State.reset).srcLen ≠ 1 * 1 * 3 := by decide

theorem witness_HeaderIsSerialized :
    encoding (encodeCall 1 1 3 0 [1, 2, 3] State.reset) ∧ (encodeCall 1 1 3 0 [1, 2, 3] State.reset).snkLen = 0 ∧
      channelsDefined (encodeCall 1 1 3 0 [1, 2, 3] State.reset) ∧
      (encodeCall 1 1 3 0 [1, 2, 3] State.reset).srcLen = 1 * 1 * 3 := by decide

theorem witness_RunContinuesSilently :
    atPixel (encoder 4 grey 5 2 [10, 20, 30, 255, 0, 0, 0, 0]) ∧
      nextPixel (encoder 4 grey 5 2 [10, 20, 30, 255, 0, 0, 0, 0]) = grey ∧
      (encoder 4 grey 5 2 [10, 20, 30, 255, 0, 0, 0, 0]).run + 1 ≠ 62 ∧
      behindPixel (encoder 4 grey 5 2 [10, 20, 30, 255, 0, 0, 0, 0]) ≠ 8 := by decide

/-- A run flushed at its limit, and one flushed by the last pixel. -/
theorem witness_RunIsFlushed :
    (atPixel (encoder 4 grey 61 2 [10, 20, 30, 255, 0, 0, 0, 0]) ∧
      nextPixel (encoder 4 grey 61 2 [10, 20, 30, 255, 0, 0, 0, 0]) = grey ∧
      (encoder 4 grey 61 2 [10, 20, 30, 255, 0, 0, 0, 0]).run + 1 = 62) ∧
    (atPixel (encoder 3 grey 0 1 [10, 20, 30]) ∧ nextPixel (encoder 3 grey 0 1 [10, 20, 30]) = grey ∧
      behindPixel (encoder 3 grey 0 1 [10, 20, 30]) = 3) := by decide

theorem witness_CacheHitEmitsIndex :
    atPixel (encoder 4 grey 5 1 [0, 0, 0, 0]) ∧ nextPixel (encoder 4 grey 5 1 [0, 0, 0, 0]) ≠ grey ∧
      (encoder 4 grey 5 1 [0, 0, 0, 0]).cache[hashSlot (nextPixel (encoder 4 grey 5 1 [0, 0, 0, 0]))] =
        nextPixel (encoder 4 grey 5 1 [0, 0, 0, 0]) := by decide

/-- What the four statements about a cache miss share. -/
abbrev misses (s : State) : Prop :=
  atPixel s ∧ nextPixel s ≠ s.prev ∧ s.cache[hashSlot (nextPixel s)] ≠ nextPixel s

theorem witness_AlphaChangeEmitsRgba :
    misses (encoder 4 grey 0 1 [10, 20, 30, 128]) ∧ (nextPixel (encoder 4 grey 0 1 [10, 20, 30, 128])).a ≠ grey.a := by
  decide

/-- Both ends of the range (V33, V34). -/
theorem witness_SmallDifferenceEmitsDiff :
    ∀ p ∈ [encoder 4 grey 0 1 [8, 18, 28, 255], encoder 3 grey 5 1 [11, 21, 31]],
      misses p ∧ (nextPixel p).a = p.prev.a ∧
      (-2 ≤ channelDiff (nextPixel p).r p.prev.r ∧ channelDiff (nextPixel p).r p.prev.r ≤ 1) ∧
      (-2 ≤ channelDiff (nextPixel p).g p.prev.g ∧ channelDiff (nextPixel p).g p.prev.g ≤ 1) ∧
      (-2 ≤ channelDiff (nextPixel p).b p.prev.b ∧ channelDiff (nextPixel p).b p.prev.b ≤ 1) := by decide

/-- Both ends of the range (V38, V39). -/
theorem witness_LumaDifferenceEmitsLuma :
    ∀ p ∈ [encoder 4 grey 0 1 [226, 244, 5, 255], encoder 4 grey 0 1 [48, 51, 53, 255]],
      misses p ∧ (nextPixel p).a = p.prev.a ∧
      fitsDiff (diffs (nextPixel p) p.prev) = false ∧ fitsLuma (diffs (nextPixel p) p.prev) = true := by decide

/-- Just outside the range (V42, V45). -/
theorem witness_FallbackEmitsRgb :
    ∀ p ∈ [encoder 4 grey 0 1 [10, 52, 30, 255], encoder 4 grey 0 1 [233, 243, 253, 255]],
      misses p ∧ (nextPixel p).a = p.prev.a ∧
      fitsDiff (diffs (nextPixel p) p.prev) = false ∧ fitsLuma (diffs (nextPixel p) p.prev) = false := by decide

theorem witness_TrailerEndsTheEncodeCall :
    encoding (encoder 4 grey 0 0 []) ∧ (encoder 4 grey 0 0 []).snkLen ≠ 0 ∧
      (encoder 4 grey 0 0 []).srcLen ≤ (encoder 4 grey 0 0 []).rp := by decide

theorem witness_HashIsTheSumMod64 : 6 ≤ 6 ∧ 6 ≤ 8 := by decide

/-- The encode steps: a miss, a hit, a run continuation; the decode steps: an opcode that inserts, one that
does not, a failure; outside a call: `start`, and two moves that are not. -/
theorem witness_CacheIsWrittenOnlyByNewPixels :
    (∀ s ∈ [encoder 4 grey 0 1 [10, 52, 30, 255], encoder 4 grey 0 1 [0, 0, 0, 0],
        encoder 4 grey 0 1 [10, 20, 30, 255]], encoding s ∧ (answer (step s)).isSome = true) ∧
    (∀ s ∈ [atOpcode 4 [0x40], atOpcode 4 [0x25], decoder 4 grey []],
      decoding s ∧ (answer (step s)).isSome = true) ∧
    (∀ m ∈ [HostMove.start, .setMode .dec, .powerOnReset], ({ State.reset with host := [m] } : State).status ≠ .running ∧
      (answer (step { State.reset with host := [m] })).isSome = true) := by decide

/-- In each mode. -/
theorem witness_StartInitialisesTheCall :
    ∀ m ∈ [Mode.enc, .dec],
      ({ State.reset with mode := m, host := [.start] } : State).status ≠ .running ∧
      ({ State.reset with mode := m, host := [.start] } : State).host = .start :: [] ∧
      ({ State.reset with mode := m, host := [.start] } : State).mode = m := by decide

theorem witness_PowerOnResetsTheControlSide :
    ({ State.reset with status := .failed, host := [.powerOnReset] } : State).status ≠ .running ∧
      ({ State.reset with status := .failed, host := [.powerOnReset] } : State).host = .powerOnReset :: [] := by
  decide

/-- One state for each move, and one with none. -/
theorem witness_HostWritesItsRegisters :
    (State.reset.status ≠ .running ∧ State.reset.host = []) ∧
    ∀ m ∈ [HostMove.setMode .dec, .setWidth 1, .setHeight 1, .setChannels 3, .setColorspace 1, .fillSource [0, 1]],
      ({ State.reset with host := [m] } : State).status ≠ .running ∧
      ({ State.reset with host := [m] } : State).host = m :: [] := by decide

/-- An encode call and a decode call just started. -/
theorem inv_of_calls :
    Inv (encodeCall 1 1 3 0 [1, 2, 3] State.reset) ∧ Inv (decodeCall emptyImage State.reset) := by
  constructor <;> constructor <;> decide

/-- Witness of StepKeepsTheInvariant, StepsGoOn and ReadPositionOnlyAdvances, in each mode. -/
theorem witness_StepKeepsTheInvariant :
    ∀ s ∈ [encodeCall 1 1 3 0 [1, 2, 3] State.reset, decodeCall emptyImage State.reset],
      Inv s ∧ s.status = .running ∧ s.rp = 0 ∧ (answer (step s)).isSome = true := by
  intro s hs
  simp only [List.mem_cons, List.not_mem_nil, or_false] at hs
  rcases hs with rfl | rfl
  · exact ⟨inv_of_calls.1, by decide⟩
  · exact ⟨inv_of_calls.2, by decide⟩

/-- Witness of SinkIsAppendOnly, DecoderNeverLooksAtTheSize and CallLeavesTheHostsSideAlone. -/
theorem witness_SinkIsAppendOnly :
    ∃ t, decoding (atOpcode 3 [0x25]) ∧ (atOpcode 3 [0x25]).rp ≠ 0 ∧ step (atOpcode 3 [0x25]) = .next t ∧
      t.status ≠ .failed := by
  obtain ⟨t, ht, hf⟩ := next_of_map (o := step (atOpcode 3 [0x25])) (f := (·.status)) (a := .running) (by decide)
  exact ⟨t, by decide, by decide, ht, by rw [hf]; decide⟩

/-- Witness of EncodeOutputIsBounded, EncodeCallEnds, EncodeDependsOnTheImageAlone, RoundTripIdentity and
DecoderMirrorsTheEncoder: one pixel of three channels. -/
theorem witness_EncodeCallEnds :
    ∃ t, ((3 : Byte) = 3 ∨ (3 : Byte) = 4) ∧ [200, 20, (30 : Byte)].length = 1 * 1 * 3 ∧
      core.run 3 (encodeCall 1 1 3 0 [200, 20, 30] State.reset) = .next t ∧
      hostView t = .done 1 1 3 0 ([0x71, 0x6f, 0x69, 0x66, 0, 0, 0, 1, 0, 0, 0, 1, 3, 0] ++ [0xfe, 200, 20, 30] ++ Config.trailer) := by
  obtain ⟨t, ht, hv⟩ := next_of_map (o := core.run 3 (encodeCall 1 1 3 0 [200, 20, 30] State.reset)) (f := hostView)
    (a := .done 1 1 3 0 ([0x71, 0x6f, 0x69, 0x66, 0, 0, 0, 1, 0, 0, 0, 1, 3, 0] ++ [0xfe, 200, 20, 30] ++ Config.trailer))
    (by decide)
  exact ⟨t, by decide, rfl, ht, hv⟩

/-- Witness of DecodeOutputIsBounded, DecodeCallEnds and DecodeDependsOnTheStreamAlone. -/
theorem witness_DecodeCallEnds :
    ∃ t, emptyImage[12]? = some 4 ∧ 22 ≤ emptyImage.length ∧
      core.run 2 (decodeCall emptyImage State.reset) = .next t ∧ t.status = .done := by
  obtain ⟨t, ht, hv⟩ := next_of_map (o := core.run 2 (decodeCall emptyImage State.reset)) (f := (·.status)) (a := .done)
    (by decide)
  exact ⟨t, by decide, by decide, ht, hv⟩

/-- Witness of DecoderInvertsTheSelector: V49, with the trailer behind it. -/
theorem witness_DecoderInvertsTheSelector :
    misses (encoder 4 grey 0 1 [200, 20, 30, 255]) ∧ (encoder 4 grey 0 1 [200, 20, 30, 255]).run = 0 ∧
      (answer (step (encoder 4 grey 0 1 [200, 20, 30, 255]))).isSome = true ∧
      (decoder 4 grey []).mode = .dec ∧ (decoder 4 grey []).prev = (encoder 4 grey 0 1 [200, 20, 30, 255]).prev ∧
      (decoder 4 grey []).channels = (encoder 4 grey 0 1 [200, 20, 30, 255]).channels ∧
      (decoder 4 grey []).cache = (encoder 4 grey 0 1 [200, 20, 30, 255]).cache ∧
      8 ≤ Config.trailer.length ∧ (([0xfe, 200, 20, 30] : List Byte) ++ Config.trailer).take 8 ≠ Config.trailer := by
  decide

/-- Witness of EncodedStreamHasNoEarlyTrailer: the stream of one pixel, decoded up to its body. -/
theorem witness_EncodedStreamHasNoEarlyTrailer :
    ∃ u, core.run 1 (decodeCall ([0x71, 0x6f, 0x69, 0x66, 0, 0, 0, 1, 0, 0, 0, 1, 3, 0] ++ [0xfe, 200, 20, 30] ++
        Config.trailer) State.reset) = .next u ∧ u.status = .running ∧ 14 ≤ u.rp := by
  obtain ⟨u, hu, hv⟩ := next_of_map (o := core.run 1 (decodeCall ([0x71, 0x6f, 0x69, 0x66, 0, 0, 0, 1, 0, 0, 0, 1, 3, 0] ++
    [0xfe, 200, 20, 30] ++ Config.trailer) State.reset)) (f := fun u => (u.status, u.rp)) (a := (.running, 14)) (by decide)
  rw [Prod.mk.injEq] at hv
  exact ⟨u, hu, hv.1, by omega⟩

end Sys2Proof.Tests
end

/-! Proofs of the statements of 10_state.md: the host's moves between calls, the reset state, and the
invariant of R44, kept by every step. -/

namespace Sys2Proof.Machine

section
variable {s t : State}

/-! ## The host's moves -/

theorem step_of_host_nil (hs : s.status ≠ .running) (hh : s.host = []) : step s = .next s := by
  rw [step_of_quiescent hs, quiescentMove, hh]

theorem step_of_host_cons {m : HostMove} {ms : List HostMove} (hs : s.status ≠ .running)
    (hh : s.host = m :: ms) : step s = .next (hostMove m { s with host := ms }) := by
  rw [step_of_quiescent hs, quiescentMove, hh]

/-- The bytes the host fills SRC with are those SRC then reads as. -/
theorem Memory.slice_ofList_all (bytes : List Byte) :
    (Memory.ofList 0 bytes).slice 0 bytes.length = bytes := by
  rw [Memory.slice_ofList bytes 0 bytes.length (by omega), List.drop_zero, List.take_length]

/-! ## The clauses of the invariant, phase by phase

`Inv` states each clause under the phase it belongs to. Here the clauses are gathered by phase: what every
phase has, and what a quiescent block, a decode call and an encode call before and behind its header add
to it. A proof about one operation then meets only the clauses of the phase it runs in. -/

/-- What holds of the buffers and CACHE in every phase (10_state.md R27, R44 (d)). -/
structure InvData (s : State) : Prop where
  srcWf : s.src.wf = true
  srcBelow : s.src.below s.srcLen = true
  snkLen_eq : s.snkLen = s.snk.length
  cacheHash : ∀ i, lookup i s = Pixel.zero ∨ hashSlot (lookup i s) = i

/-- R44 (c) and (e): what an encode call keeps of PREV and CACHE. -/
structure EncCache (s : State) : Prop where
  alpha : s.channels = 3 → s.prev.a = 255 ∧ ∀ i, lookup i s = Pixel.zero ∨ (lookup i s).a = 255
  prev : lookup (hashSlot s.prev) s = s.prev ∨ (s.prev = Pixel.opaqueBlack ∧ lookup 53 s = Pixel.zero)

/-- The checks an encode call has passed behind its header, and the chunk boundary it stands at. -/
structure EncPosition (s : State) : Prop where
  channels : channelsDefined s
  size : s.srcLen = s.width.toNat * s.height.toNat * s.channels.toNat
  aligned : s.channels.toNat ∣ s.rp
  rp_le : s.rp ≤ s.srcLen

theorem Inv.data (h : Inv s) : InvData s := { h with }

theorem Inv.err_eq_none (h : Inv s) (hs : s.status ≠ .failed) : s.err = none :=
  not_not.mp fun he => hs (h.err_iff.mp he)

theorem Inv.encCache (h : Inv s) (he : encoding s) : EncCache s :=
  ⟨h.encAlpha he.1 he.2, h.encPrev he.1 he.2⟩

theorem inv_iff_of_quiescent (hs : s.status ≠ .running) :
    Inv s ↔ InvData s ∧ s.run = 0 ∧ (s.err ≠ none ↔ s.status = .failed) ∧
      (s.status = .failed → s.snkLen = 0) := by
  constructor
  · intro h
    exact ⟨h.data, h.run_zero (.inl hs), h.err_iff, h.failedEmpty⟩
  · rintro ⟨hd, hrun, herr, hempty⟩
    exact { hd with
      err_iff := herr
      failedEmpty := hempty
      rp_le := fun h => absurd h hs
      run_le := by simp [hrun]
      run_zero := fun _ => hrun
      decWithheld := fun h => absurd h hs
      encAlpha := fun h => absurd h hs
      encPrev := fun h => absurd h hs
      decRp := fun h => absurd h hs
      encBegin := fun h => absurd h hs
      encBody := fun h => absurd h hs
      encEnd := fun h => absurd h hs }

theorem inv_iff_of_decoding (hs : decoding s) :
    Inv s ↔ InvData s ∧ s.err = none ∧ s.run = 0 ∧ s.rp ≤ s.srcLen ∧ s.withheld = .all ∧
      ((s.rp = 0 ∧ s.snkLen = 0) ∨ Config.headerLength ≤ s.rp) := by
  obtain ⟨hr, hm⟩ := hs
  have hne : s.mode ≠ .enc := by simp [hm]
  constructor
  · intro h
    exact ⟨h.data, h.err_eq_none (by simp [hr]), h.run_zero (.inr hm), h.rp_le hr, h.decWithheld hr hm,
      h.decRp hr hm⟩
  · rintro ⟨hd, herr, hrun, hrp, hw, hpos⟩
    exact { hd with
      err_iff := by simp [herr, hr]
      failedEmpty := by simp [hr]
      rp_le := fun _ => hrp
      run_le := by simp [hrun]
      run_zero := fun _ => hrun
      decWithheld := fun _ _ => hw
      encAlpha := fun _ h => absurd h hne
      encPrev := fun _ h => absurd h hne
      decRp := fun _ _ => hpos
      encBegin := fun _ h => absurd h hne
      encBody := fun _ h => absurd h hne
      encEnd := fun _ h => absurd h hne }

/-- Before its header an encode call has read and counted nothing. -/
theorem inv_iff_of_encoding_begin (hs : encoding s) (h0 : s.snkLen = 0) :
    Inv s ↔ InvData s ∧ s.err = none ∧ EncCache s ∧ s.rp = 0 ∧ s.run = 0 := by
  obtain ⟨hr, hm⟩ := hs
  constructor
  · intro h
    exact ⟨h.data, h.err_eq_none (by simp [hr]), h.encCache ⟨hr, hm⟩, h.encBegin hr hm h0⟩
  · rintro ⟨hd, herr, hc, hrp, hrun⟩
    exact { hd with
      err_iff := by simp [herr, hr]
      failedEmpty := by simp [hr]
      rp_le := by simp [hrp]
      run_le := by simp [hrun]
      run_zero := fun _ => hrun
      decWithheld := by simp [hm]
      encAlpha := fun _ _ => hc.alpha
      encPrev := fun _ _ => hc.prev
      decRp := by simp [hm]
      encBegin := fun _ _ _ => ⟨hrp, hrun⟩
      encBody := fun _ _ h => absurd h0 h
      encEnd := fun _ _ _ => hrun }

/-- Behind its header an encode call may have a run open, but not where the input is exhausted. -/
theorem inv_iff_of_encoding_body (hs : encoding s) (h0 : s.snkLen ≠ 0) :
    Inv s ↔ InvData s ∧ s.err = none ∧ EncCache s ∧ EncPosition s ∧ s.run.toNat ≤ 61 ∧
      (s.rp = s.srcLen → s.run = 0) := by
  obtain ⟨hr, hm⟩ := hs
  constructor
  · intro h
    obtain ⟨hch, hsize, hdvd⟩ := h.encBody hr hm h0
    exact ⟨h.data, h.err_eq_none (by simp [hr]), h.encCache ⟨hr, hm⟩, ⟨hch, hsize, hdvd, h.rp_le hr⟩,
      h.run_le, h.encEnd hr hm⟩
  · rintro ⟨hd, herr, hc, hp, hrun, hend⟩
    exact { hd with
      err_iff := by simp [herr, hr]
      failedEmpty := by simp [hr]
      rp_le := fun _ => hp.rp_le
      run_le := hrun
      run_zero := by simp [hr, hm]
      decWithheld := by simp [hm]
      encAlpha := fun _ _ => hc.alpha
      encPrev := fun _ _ => hc.prev
      decRp := by simp [hm]
      encBegin := fun _ _ h => absurd h h0
      encBody := fun _ _ _ => ⟨hp.channels, hp.size, hp.aligned⟩
      encEnd := fun _ _ => hend }

/-! ## What the operations keep of the buffers and CACHE -/

theorem InvData.memWrite (h : InvData s) (bytes : List Byte) : InvData (memWrite bytes s) :=
  { h with snkLen_eq := by simp [h.snkLen_eq] }

theorem InvData.emit (h : InvData s) (i : Instr) : InvData (emit i s) := h.memWrite (encode i)

theorem InvData.emitRun (h : InvData s) (n : Nat) : InvData (emitRun n s) := { h.emit (.run n) with }

/-- An insert puts the pixel into the slot at its own hash, as R44 (d) asks. -/
theorem InvData.insertPixel (h : InvData s) (p : Pixel) : InvData (insertPixel p s) :=
  { h with
    cacheHash := fun i => by
      rw [lookup_insertPixel]
      split
      · next hi => exact .inr hi.symm
      · exact h.cacheHash i }

theorem InvData.raise (h : InvData s) (f : Failure) : InvData (raise f s) := { h with snkLen_eq := rfl }

theorem InvData.start (h : InvData s) : InvData (start s) :=
  { h with snkLen_eq := rfl, cacheHash := fun i => .inl (lookup_start i s) }

/-! ## How a call begins and ends -/

/-- A failure of either call, where no run is open. -/
theorem Inv.raise (h : Inv s) (hrun : s.run = 0) (f : Failure) : Inv (raise f s) :=
  (inv_iff_of_quiescent (by simp)).mpr ⟨h.data.raise f, hrun, by simp, by simp⟩

/-- The successful end of either call, where no run is open. -/
theorem inv_finish (hd : InvData s) (herr : s.err = none) (hrun : s.run = 0) : Inv (finish s) :=
  (inv_iff_of_quiescent (by simp)).mpr ⟨{ hd with }, hrun, by simp [herr], by simp⟩

theorem encCache_start (s : State) : EncCache (start s) :=
  ⟨fun _ => ⟨rfl, fun i => .inl (lookup_start i s)⟩, .inr ⟨rfl, lookup_start 53 s⟩⟩

theorem inv_start (hd : InvData s) : Inv (start s) := by
  cases hm : s.mode with
  | enc =>
    exact (inv_iff_of_encoding_begin (by exact ⟨rfl, hm⟩) (by rfl)).mpr
      ⟨hd.start, rfl, encCache_start s, rfl, rfl⟩
  | dec =>
    exact (inv_iff_of_decoding (by exact ⟨rfl, hm⟩)).mpr
      ⟨hd.start, rfl, rfl, by simp, withheldAtStart_dec hm, .inl ⟨rfl, rfl⟩⟩

/-- What the host may do between calls keeps the invariant. -/
theorem inv_hostMove (h : Inv s) (hs : s.status ≠ .running) (m : HostMove) : Inv (hostMove m s) := by
  obtain ⟨hd, hrun, herr, hempty⟩ := (inv_iff_of_quiescent hs).mp h
  cases m with
  | start => exact inv_start hd
  | powerOnReset =>
    exact (inv_iff_of_quiescent (by simp [hostMove])).mpr
      ⟨{ hd with snkLen_eq := rfl }, rfl, by simp [hostMove], fun _ => rfl⟩
  | fillSource bytes =>
    have hsrc : InvData (hostMove (.fillSource bytes) s) :=
      { hd with
        srcWf := Memory.wf_ofList bytes
        srcBelow := by simpa [hostMove] using Memory.below_ofList 0 bytes }
    exact (inv_iff_of_quiescent (by exact hs)).mpr ⟨hsrc, hrun, herr, hempty⟩
  | setMode | setWidth | setHeight | setChannels | setColorspace =>
    exact (inv_iff_of_quiescent (by exact hs)).mpr ⟨{ hd with }, hrun, herr, hempty⟩

/-! ## A decode call -/

/-- Behind the header the pixel an opcode stands for goes to PREV, and RP past the opcode. -/
theorem Inv.reconstruct (h : Inv s) (hs : decoding s) (h0 : s.rp ≠ 0) {n : Nat} (hn : s.rp + n ≤ s.srcLen)
    (p : Pixel) : Inv (reconstruct n p s) := by
  obtain ⟨hd, herr, hrun, -, hw, hpos⟩ := (inv_iff_of_decoding hs).mp h
  refine (inv_iff_of_decoding (by exact hs)).mpr ⟨{ hd with }, herr, hrun, hn, hw, .inr ?_⟩
  rw [reconstruct_rp]
  omega

theorem Inv.memWrite_of_decoding (h : Inv s) (hs : decoding s) (h0 : s.rp ≠ 0) (bytes : List Byte) :
    Inv (memWrite bytes s) := by
  obtain ⟨hd, herr, hrun, hrp, hw, hpos⟩ := (inv_iff_of_decoding hs).mp h
  exact (inv_iff_of_decoding (by exact hs)).mpr
    ⟨hd.memWrite bytes, herr, hrun, hrp, hw, .inr (hpos.resolve_left fun e => h0 e.1)⟩

theorem Inv.insertPixel_of_decoding (h : Inv s) (hs : decoding s) (p : Pixel) : Inv (insertPixel p s) := by
  obtain ⟨hd, hrest⟩ := (inv_iff_of_decoding hs).mp h
  exact (inv_iff_of_decoding (by exact hs)).mpr ⟨hd.insertPixel p, hrest⟩

theorem Inv.loadHeader (h : Inv s) (hs : decoding s) (hl : Config.headerLength ≤ s.srcLen) (w hh : Word32)
    (c cs : Byte) : Inv (loadHeader w hh c cs s) := by
  obtain ⟨hd, herr, hrun, -, hw, -⟩ := (inv_iff_of_decoding hs).mp h
  exact (inv_iff_of_decoding (by exact hs)).mpr ⟨{ hd with }, herr, hrun, hl, hw, .inr (Nat.le_refl _)⟩

/-- What an instruction at a boundary does to RP lies within SRC, as its bytes were there to be read. -/
theorem decode_boundary_bound {i : Instr} {rest : List Byte}
    (h : decode (position s) (window s) = .ok (i, rest)) (hi : i.position = .boundary)
    (hs : s.rp ≤ s.srcLen) : s.rp ≠ 0 ∧ s.rp + i.length ≤ s.srcLen := by
  obtain ⟨-, hp, hlen, -⟩ := decode_eq_ok h
  rw [length_window] at hlen
  refine ⟨fun h0 => ?_, by omega⟩
  rw [position, if_pos h0, hi] at hp
  cases hp

theorem Inv.decodeMove (h : Inv s) (hs : decoding s) (ht : decodeMove s = .next t) : Inv t := by
  have hrun : s.run = 0 := h.run_zero (.inr hs.2)
  cases hdec : decode (position s) (window s) with
  | error e =>
    rw [decodeMove_of_error hdec] at ht
    cases ht
    exact h.raise hrun _
  | ok r =>
    obtain ⟨i, rest⟩ := r
    rw [decodeMove_of_ok hdec] at ht
    obtain ⟨hwf, hpos, -, hfirst⟩ := decode_eq_ok hdec
    have hb := fun hi => decode_boundary_bound hdec hi (h.rp_le hs.1)
    rcases exec_dec_eq_next hs.2 hwf ht with
      ⟨p, bytes, hi, -, -, rfl⟩ | ⟨n, p, bytes, hi, -, -, -, rfl⟩ | ⟨w, hh, c, cs, rfl, rfl⟩ | ⟨-, rfl⟩
    · obtain ⟨h0, hle⟩ := hb hi
      exact ((h.reconstruct hs h0 hle p).memWrite_of_decoding hs
        (by simp [h0]) bytes).insertPixel_of_decoding hs p
    · have hi : i.position = .boundary ∧ i.length = 1 := by
        rcases hi with ⟨k, rfl, -⟩ | ⟨rfl, -⟩ <;> exact ⟨rfl, rfl⟩
      obtain ⟨h0, hle⟩ := hb hi.1
      exact (h.reconstruct hs h0 (hi.2 ▸ hle) p).memWrite_of_decoding hs (by simp) _
    · have hlen := hfirst hpos.symm
      rw [length_window] at hlen
      exact h.loadHeader hs (by simp only [Config.headerLength]; omega) w hh c cs
    · exact inv_finish h.data (h.err_eq_none (by simp [hs.1])) hrun

/-! ## An encode call -/

/-- The header is appended once the checks have passed. -/
theorem Inv.emit_header (h : Inv s) (hs : encoding s) (h0 : s.snkLen = 0) (hc : channelsDefined s)
    (hsize : s.srcLen = s.width.toNat * s.height.toNat * s.channels.toNat) :
    Inv (emit (.hdr s.width s.height s.channels s.colorspace) s) := by
  obtain ⟨hd, herr, hcache, hrp, hrun⟩ := (inv_iff_of_encoding_begin hs h0).mp h
  have hp : EncPosition s := ⟨hc, hsize, by simp [hrp], by simp [hrp]⟩
  exact (inv_iff_of_encoding_body (by exact hs) (by simp [encode, Config.magic])).mpr
    ⟨hd.emit _, herr, { hcache with }, { hp with }, by simp [hrun], fun _ => hrun⟩

/-- Behind the header a further emission changes nothing the invariant speaks of but the sink. -/
theorem Inv.emit_of_body (h : Inv s) (hs : encoding s) (h0 : s.snkLen ≠ 0) (i : Instr) : Inv (emit i s) := by
  obtain ⟨hd, herr, hcache, hp, hrun⟩ := (inv_iff_of_encoding_body hs h0).mp h
  exact (inv_iff_of_encoding_body (by exact hs) (by simp [h0])).mpr
    ⟨hd.emit i, herr, { hcache with }, { hp with }, hrun⟩

theorem EncPosition.takePixel (h : EncPosition s) (hle : s.rp + s.channels.toNat ≤ s.srcLen) (p : Pixel) :
    EncPosition (takePixel s.channels.toNat p s) :=
  { h with aligned := (Nat.dvd_add_self_right).mpr h.aligned, rp_le := hle }

/-- A cache hit: PREV may become the pixel its slot holds. -/
theorem EncCache.settle_hit (h : EncCache s) (ha : s.channels = 3 → s.px.a = 255)
    (hit : lookup (hashSlot s.px) s = s.px) : EncCache (settlePixel s) :=
  ⟨fun hc => ⟨ha hc, (h.alpha hc).2⟩, .inl hit⟩

/-- A miss: PREV may become the pixel that was inserted. -/
theorem EncCache.settle_insert (h : EncCache s) (ha : s.channels = 3 → s.px.a = 255) :
    EncCache (settlePixel (insertPixel s.px s)) where
  alpha hc := by
    refine ⟨ha hc, fun i => ?_⟩
    rw [lookup_settlePixel, lookup_insertPixel]
    split
    · exact .inr (ha hc)
    · exact (h.alpha hc).2 i
  prev := .inl (lookup_insertPixel_same s.px s)

/-- A pixel that equals PREV is counted; the run is flushed before it could reach 62, and where the input is
exhausted (42_encoder.md R162, R163, R165). -/
theorem Inv.continue_run (h : Inv s) (hs : encoding s) (h0 : s.snkLen ≠ 0)
    (hle : s.rp + s.channels.toNat ≤ s.srcLen)
    (ht : resolvePixel (takePixel s.channels.toNat s.prev s) = .next t) : Inv t := by
  obtain ⟨hdata, herr, hcache, hpos, hrun, -⟩ := (inv_iff_of_encoding_body hs h0).mp h
  have hp : EncPosition (takePixel s.channels.toNat s.prev s) := hpos.takePixel hle s.prev
  have hd : InvData (countPixel (takePixel s.channels.toNat s.prev s)) := { hdata with }
  rw [resolvePixel_of_eq (by exact hs.2) (by rfl)] at ht
  split at ht
  · cases ht
    exact (inv_iff_of_encoding_body (by exact hs) (by simp)).mpr
      ⟨{ hd.emitRun _ with }, herr, { hcache with }, { hp with }, by simp, by simp⟩
  · next hopen =>
    cases ht
    obtain ⟨(hmax : s.run + 1 ≠ 62), hend⟩ := not_or.mp hopen
    have hcount : (s.run + 1).toNat ≤ 61 := by bv_omega
    exact (inv_iff_of_encoding_body (by exact hs) (by exact h0)).mpr
      ⟨{ hd with }, herr, { hcache with }, { hp with }, hcount, fun e => absurd e hend⟩

/-- A differing pixel: the open run is flushed, the pixel is coded, PREV takes it (42_encoder.md R160). -/
theorem resolvePixel_eq_next_of_ne (hp : s.px ≠ s.prev) (ht : resolvePixel s = .next t) :
    ∃ u v, flushRun s = .next u ∧ codePixel u = .next v ∧ t = settlePixel v := by
  rw [resolvePixel, if_neg hp] at ht
  obtain ⟨v, hv, hset⟩ := andThen_eq_next.mp ht
  obtain ⟨u, hu, hcode⟩ := andThen_eq_next.mp hv
  cases hset
  exact ⟨u, v, hu, hcode, rfl⟩

/-- Reading a pixel alone may break the invariant, at the end of the input with a run open; with the flush
behind it (42_encoder.md R164) it holds again. -/
theorem Inv.takePixel_flush (h : Inv s) (hs : encoding s) (h0 : s.snkLen ≠ 0)
    (hle : s.rp + s.channels.toNat ≤ s.srcLen) {p : Pixel} {u : State}
    (hu : flushRun (takePixel s.channels.toNat p s) = .next u) :
    Inv u ∧ encoding u ∧ u.snkLen ≠ 0 ∧ u.px = p ∧ u.channels = s.channels := by
  obtain ⟨hdata, herr, hcache, hpos, hcount, -⟩ := (inv_iff_of_encoding_body hs h0).mp h
  have hp : EncPosition (takePixel s.channels.toNat p s) := hpos.takePixel hle p
  have hd : InvData (takePixel s.channels.toNat p s) := { hdata with }
  rw [flushRun_of_enc (by exact hs.2)] at hu
  split at hu
  · next hrun =>
    cases hu
    refine ⟨(inv_iff_of_encoding_body (by exact hs) (by exact h0)).mpr ?_, hs, h0, rfl, rfl⟩
    exact ⟨hd, herr, { hcache with }, hp, hcount, fun _ => hrun⟩
  · cases hu
    refine ⟨(inv_iff_of_encoding_body (by exact hs) (by simp)).mpr ?_, hs, by simp, rfl, rfl⟩
    exact ⟨hd.emitRun _, herr, { hcache with }, { hp with }, by simp, by simp⟩

/-- A differing pixel is coded and goes to PREV: on a hit CACHE holds it, on a miss it is inserted
(42_encoder.md R166, R167, R176). -/
theorem Inv.codePixel_settle (h : Inv s) (hs : encoding s) (h0 : s.snkLen ≠ 0)
    (ha : s.channels = 3 → s.px.a = 255) (ht : codePixel s = .next t) : Inv (settlePixel t) := by
  obtain ⟨hd, herr, hcache, hp, hrest⟩ := (inv_iff_of_encoding_body hs h0).mp h
  rw [codePixel_of_enc hs.2] at ht
  split at ht
  · next hit =>
    cases ht
    have hi : Inv (settlePixel s) := (inv_iff_of_encoding_body (by exact hs) (by exact h0)).mpr
      ⟨{ hd with }, herr, hcache.settle_hit ha hit, { hp with }, hrest⟩
    exact hi.emit_of_body hs h0 _
  · cases ht
    have hi : Inv (settlePixel (insertPixel s.px s)) :=
      (inv_iff_of_encoding_body (by exact hs) (by exact h0)).mpr
        ⟨{ hd.insertPixel s.px with }, herr, hcache.settle_insert ha, { hp with }, hrest⟩
    exact hi.emit_of_body hs h0 _

theorem Inv.encodeMove (h : Inv s) (hs : encoding s) (ht : encodeMove s = .next t) : Inv t := by
  rcases encodeMove_eq_next hs.2 ht with
    ⟨h0, f, -, rfl⟩ | ⟨h0, hc, hsize, rfl⟩ | ⟨h0, -, -, hle, p, -, ha, hres⟩ | ⟨-, hge, rfl⟩
  · exact h.raise (h.encBegin hs.1 hs.2 h0).2 f
  · exact h.emit_header hs h0 hc hsize
  · by_cases hp : p = s.prev
    · subst hp
      exact h.continue_run hs h0 hle hres
    · obtain ⟨u, v, hflush, hcode, rfl⟩ := resolvePixel_eq_next_of_ne (by exact hp) hres
      obtain ⟨hu, hsu, h0u, hpx, hch⟩ := h.takePixel_flush hs h0 hle hflush
      exact hu.codePixel_settle hsu h0u (by rwa [hpx, hch]) hcode
  · have hrun : s.run = 0 := h.encEnd hs.1 hs.2 (Nat.le_antisymm (h.rp_le hs.1) hge)
    exact inv_finish (h.data.emit .endMarker) (h.err_eq_none (by simp [hs.1])) hrun

end

/-! ## The statements -/

/-- Settles O46: the block's move in either call keeps the invariant, and so does every move of the host. -/
theorem stepKeepsTheInvariant : Obligations.StepKeepsTheInvariant := by
  intro s t h ht
  rcases step_eq_next ht with ⟨hr, hm, he⟩ | ⟨hr, hm, hd⟩ | ⟨-, -, rfl⟩ | ⟨hq, m, ms, -, rfl⟩
  · exact h.encodeMove ⟨hr, hm⟩ he
  · exact h.decodeMove ⟨hr, hm⟩ hd
  · exact h
  · exact inv_hostMove (s := { s with host := ms }) { h with } hq m

/-- Settles O40: the step is the host's `start`; it keeps the descriptor in either mode, and in a decode call
withholds all of it. -/
theorem startInitialisesTheCall : Obligations.StartInitialisesTheCall := by
  intro s ms hs hh
  refine ⟨s.px, s.width, s.height, s.channels, s.colorspace, withheldAtStart s, fun _ => ⟨rfl, rfl, rfl, rfl⟩,
    withheldAtStart_dec, ?_⟩
  exact step_of_host_cons hs hh

/-- Settles O41: the step is the host's power-on reset, which writes the control side and nothing else. -/
theorem powerOnResetsTheControlSide : Obligations.PowerOnResetsTheControlSide :=
  fun _ _ hs hh => step_of_host_cons hs hh

/-- Settles O42: the values are those `State.reset` writes out. -/
theorem resetLeavesTheBlockIdle : Obligations.ResetLeavesTheBlockIdle := ⟨rfl, rfl, rfl, rfl, rfl⟩

/-- Settles O43: each write is the one move of its step, and SRC reads as the bytes it is filled with. -/
theorem hostWritesItsRegisters : Obligations.HostWritesItsRegisters := by
  intro s ms hs
  refine ⟨step_of_host_nil hs, fun _ => step_of_host_cons hs, fun _ => step_of_host_cons hs,
    fun _ => step_of_host_cons hs, fun _ => step_of_host_cons hs, fun _ => step_of_host_cons hs, fun bytes hh => ?_⟩
  exact ⟨Memory.ofList 0 bytes, step_of_host_cons hs hh, Memory.slice_ofList_all bytes⟩

/-- Settles O45: the reset state is quiescent with no run open, an empty SRC and sink, and zero cache slots. -/
theorem resetSatisfiesTheInvariant : Obligations.ResetSatisfiesTheInvariant := by
  have hcache : ∀ i, lookup i State.reset = Pixel.zero := fun i => by simp [lookup, State.reset]
  exact (inv_iff_of_quiescent (by decide)).mpr
    ⟨⟨rfl, rfl, rfl, fun i => .inl (hcache i)⟩, rfl, by simp [State.reset], by simp [State.reset]⟩

end Sys2Proof.Machine

/-! Proofs of the statements of 20_memory.md: a step of a call reads only inside SRC and goes on, and what it
adds to the sink goes behind the bytes already there. -/

namespace Sys2Proof.Machine

section
variable {s t : State}

/-! ## An encode call goes on -/

/-- A call at a chunk boundary before the end of SRC has a whole chunk in front of it (20_memory.md R62, R66):
SRC_LEN is a multiple of CHANNELS. -/
theorem EncPosition.chunk_within (h : EncPosition s) (hlt : s.rp < s.srcLen) :
    s.rp + s.channels.toNat ≤ s.srcLen := by
  have hdvd : s.channels.toNat ∣ s.srcLen - s.rp :=
    Nat.dvd_sub (h.size ▸ Nat.dvd_mul_left _ _) h.aligned
  have hle : s.channels.toNat ≤ s.srcLen - s.rp := Nat.le_of_dvd (by omega) hdvd
  omega

/-- A whole chunk within SRC is read. -/
theorem readPixel_of_within (hc : channelsDefined s) (hle : s.rp + s.channels.toNat ≤ s.srcLen) :
    ∃ p, readPixel s = .next (takePixel s.channels.toNat p s) := by
  rcases hc with hc | hc
  · rw [hc] at hle ⊢
    exact ⟨_, readPixel_of_three hc hle⟩
  · rw [hc] at hle ⊢
    exact ⟨_, readPixel_of_four hc hle⟩

/-- Once its pixel is read, a step of the pass always answers. -/
theorem resolvePixel_answers (hm : s.mode = .enc) : ∃ t, resolvePixel s = .next t := by
  by_cases hp : s.px = s.prev
  · exact ⟨_, resolvePixel_of_eq hm hp⟩
  · exact ⟨_, resolvePixel_of_ne hm hp rfl⟩

/-- Before its header an encode call fails or appends the header. -/
theorem beginEncode_answers (hm : s.mode = .enc) : ∃ t, beginEncode s = .next t := by
  unfold beginEncode
  split
  · exact ⟨_, rfl⟩
  split
  · exact ⟨_, rfl⟩
  · exact ⟨_, exec_of_enc hm _⟩

/-- Behind its header an encode call resolves the chunk in front of it, or appends the trailer. -/
theorem encodeMove_answers (h : Inv s) (hs : encoding s) : ∃ t, encodeMove s = .next t := by
  unfold encodeMove
  split
  · exact beginEncode_answers hs.2
  · next h0 =>
    split
    · next hlt =>
      obtain ⟨-, -, -, hpos, -⟩ := (inv_iff_of_encoding_body hs h0).mp h
      obtain ⟨p, hread⟩ := readPixel_of_within hpos.channels (hpos.chunk_within hlt)
      rw [stepEnc, hread, andThen_next]
      exact resolvePixel_answers (by exact hs.2)
    · exact ⟨_, exec_of_enc hs.2 _⟩

/-! ## A decode call goes on -/

/-- Where DEC_BAD_CHANNELS does not stop the call, a pixel can be written. -/
theorem pixelChunk_of_meaning (h : channelsDefined s ∨ s.decBadChannels = .as4) (p : Pixel) :
    ∃ bytes, pixelChunk s p = some bytes := by
  rcases h with hc | hd
  · obtain ⟨bytes, hb, -⟩ := pixelChunk_isSome hc p
    exact ⟨bytes, hb⟩
  · unfold pixelChunk
    rw [hd]
    split
    · exact ⟨_, rfl⟩
    split <;> exact ⟨_, rfl⟩

theorem finishDecode_of_meaning (h : channelsDefined s ∨ s.decBadChannels = .as4) :
    finishDecode s = .next (finish s) := by
  unfold finishDecode
  split
  · rfl
  · next hc => rw [h.resolve_left hc]

/-- Where DEC_BAD_CHANNELS does not stop the call, every decoded instruction answers: each writes a pixel or
several, loads the header, or ends the call. -/
theorem exec_dec_answers (hm : s.mode = .dec) (h : channelsDefined s ∨ s.decBadChannels = .as4) (i : Instr) :
    ∃ t, exec i s = .next t := by
  have hnew : ∀ len p, ∃ t, newPixel len p s = .next t := fun len p =>
    (pixelChunk_of_meaning h p).elim fun _ hb => ⟨_, newPixel_of_chunk hb⟩
  have hold : ∀ n p, ∃ t, oldPixel n p s = .next t := fun n p =>
    (pixelChunk_of_meaning h p).elim fun _ hb => ⟨_, oldPixel_of_chunk hb⟩
  cases i with
  | rgb r g b => rw [exec_dec_rgb hm]; exact hnew _ _
  | rgba r g b a => rw [exec_dec_rgba hm]; exact hnew _ _
  | index k => rw [exec_dec_index hm]; exact hold _ _
  | diff dr dg db => rw [exec_dec_diff hm]; exact hnew _ _
  | luma dg drg dbg => rw [exec_dec_luma hm]; exact hnew _ _
  | run n => rw [exec_dec_run hm]; exact hold _ _
  | hdr w hh c cs => exact ⟨_, exec_dec_hdr hm w hh c cs⟩
  | endMarker => rw [exec_dec_endMarker hm]; exact ⟨_, finishDecode_of_meaning h⟩

/-- At offset 0 the decoder reads nothing but HDR. -/
theorem eq_hdr_of_position_first {i : Instr} (h : i.position = .first) : ∃ w hh c cs, i = .hdr w hh c cs := by
  cases i with
  | hdr w hh c cs => exact ⟨w, hh, c, cs, rfl⟩
  | rgb | rgba | index | diff | luma | run | endMarker => cases h

/-- The header needs no CHANNELS yet; behind it DEC_BAD_CHANNELS must not stop the call. -/
theorem decodeMove_answers (hm : s.mode = .dec)
    (h : s.rp ≠ 0 → channelsDefined s ∨ s.decBadChannels = .as4) : ∃ t, decodeMove s = .next t := by
  cases hdec : decode (position s) (window s) with
  | error e => exact ⟨_, decodeMove_of_error hdec⟩
  | ok r =>
    rw [decodeMove_of_ok hdec]
    by_cases h0 : s.rp = 0
    · obtain ⟨-, hpos, -, -⟩ := decode_eq_ok hdec
      rw [position, if_pos h0] at hpos
      obtain ⟨w, hh, c, cs, hi⟩ := eq_hdr_of_position_first hpos
      rw [hi]
      exact ⟨_, exec_dec_hdr hm w hh c cs⟩
    · exact exec_dec_answers hm (h h0) r.1

/-- A quiescent block always answers. -/
theorem quiescentMove_answers (s : State) : ∃ t, quiescentMove s = .next t := by
  unfold quiescentMove
  split <;> exact ⟨_, rfl⟩

/-! ## The sink only grows -/

/-- Resolving a pixel appends the byte of a flushed run, an opcode, both or nothing. -/
theorem snk_isPrefix_of_resolvePixel (hm : s.mode = .enc) (ht : resolvePixel s = .next t) : s.snk <+: t.snk := by
  by_cases hp : s.px = s.prev
  · rw [resolvePixel_of_eq hm hp] at ht
    cases ht
    split <;> simp
  · rw [resolvePixel_of_ne hm hp rfl] at ht
    cases ht
    have hflush : s.snk <+: (if s.run = 0 then s else emitRun s.run.toNat s).snk := by split <;> simp
    generalize (if s.run = 0 then s else emitRun s.run.toNat s) = u at hflush ⊢
    refine hflush.trans ?_
    split <;> simp

/-- Only a failure discards what an encode call has appended. -/
theorem snk_isPrefix_of_encodeMove (hm : s.mode = .enc) (ht : encodeMove s = .next t) (hf : t.status ≠ .failed) :
    s.snk <+: t.snk := by
  rcases encodeMove_eq_next hm ht with
    ⟨-, f, -, rfl⟩ | ⟨-, -, -, rfl⟩ | ⟨-, -, -, -, p, -, -, hres⟩ | ⟨-, -, rfl⟩
  · exact absurd rfl hf
  · simp
  · exact snk_isPrefix_of_resolvePixel (s := takePixel s.channels.toNat p s) hm hres
  · simp

/-- Only a failure discards what a decode call has written. -/
theorem snk_isPrefix_of_decodeMove (hm : s.mode = .dec) (ht : decodeMove s = .next t) (hf : t.status ≠ .failed) :
    s.snk <+: t.snk := by
  cases hdec : decode (position s) (window s) with
  | error e =>
    rw [decodeMove_of_error hdec] at ht
    cases ht
    exact absurd rfl hf
  | ok r =>
    rw [decodeMove_of_ok hdec] at ht
    obtain ⟨hwf, -, -, -⟩ := decode_eq_ok hdec
    rcases exec_dec_eq_next hm hwf ht with
      ⟨p, bytes, -, -, -, rfl⟩ | ⟨n, p, bytes, -, -, -, -, rfl⟩ | ⟨w, hh, c, cs, -, rfl⟩ | ⟨-, rfl⟩ <;> simp

end

/-! ## The statements -/

/-- Settles O47: an encode call behind its checks stands at whole chunks within SRC, a decode call looks only at
what remains of SRC, and a quiescent block always answers. -/
theorem stepsGoOn : Obligations.StepsGoOn := by
  intro s h hch
  by_cases hs : s.status = .running
  · cases hm : s.mode with
    | enc => rw [step_of_enc hs hm]; exact encodeMove_answers h ⟨hs, hm⟩
    | dec => rw [step_of_dec hs hm]; exact decodeMove_answers hm (hch ⟨hs, hm⟩)
  · rw [step_of_quiescent hs]
    exact quiescentMove_answers s

/-- Settles O49: each move of either call appends to the sink, unless it fails. -/
theorem sinkIsAppendOnly : Obligations.SinkIsAppendOnly := by
  intro s t hs ht hf
  have hpre : s.snk <+: t.snk := by
    cases hm : s.mode with
    | enc => rw [step_of_enc hs hm] at ht; exact snk_isPrefix_of_encodeMove hm ht hf
    | dec => rw [step_of_dec hs hm] at ht; exact snk_isPrefix_of_decodeMove hm ht hf
  obtain ⟨bytes, hb⟩ := hpre
  exact ⟨bytes, hb.symm⟩

end Sys2Proof.Machine

/-! Proofs of the statements of 30_encoding.md: the decoder and the encoder are inverse to each other in both
directions, and the 256 tag bytes fall into the ranges of the six opcodes. -/

namespace Sys2Proof

/-! ## The decoder undoes the encoder -/

/-- With the shortest body behind it (40_header_trailer.md R122) the header reads back. -/
theorem decodeHeader_encode (w h : Word32) (c cs : Byte) {rest : List Byte} (hr : 8 ≤ rest.length) :
    decodeHeader (encode (.hdr w h c cs) ++ rest) = .ok (.hdr w h c cs, rest) := by
  obtain ⟨w0, w1, w2, w3, hw, rfl⟩ := be32Read_be32Bytes w
  obtain ⟨h0, h1, h2, h3, hh, rfl⟩ := be32Read_be32Bytes h
  have hlen : ¬(encode (.hdr (be32Read w0 w1 w2 w3) (be32Read h0 h1 h2 h3) c cs) ++ rest).length
      < Config.minStream := by
    simp [encode, hw, hh, Config.magic, Config.minStream]
    omega
  rw [decodeHeader, if_neg hlen, encode, hw, hh]
  exact if_pos rfl

/-- The trailer reads as END, whatever lies behind it (R107). -/
theorem decodeBoundary_encode_endMarker (rest : List Byte) :
    decodeBoundary (encode .endMarker ++ rest) = .ok (.endMarker, rest) :=
  decodeBoundary_of_trailer rfl

/-- An opcode reads back where the boundary test (43_decoder.md R200) lets its tag through. -/
theorem decodeBoundary_encode {i : Instr} {rest : List Byte} (hw : i.WellFormed) (hi : Machine.isOpcode i)
    (hlen : 8 ≤ (encode i ++ rest).length) (ht : (encode i ++ rest).take 8 ≠ Config.trailer) :
    decodeBoundary (encode i ++ rest) = .ok (i, rest) := by
  obtain ⟨t, bytes, he, hdec⟩ := decodeTag_encode hw hi.1 hi.2 rest
  rw [he] at hlen ht ⊢
  rw [decodeBoundary_of_tag hlen ht, hdec]

/-! ## The encoder undoes the decoder -/

/-- Only HDR is read at offset 0, and from its own encoding. -/
theorem decodeHeader_eq_ok {bytes rest : List Byte} {i : Instr} (h : decodeHeader bytes = .ok (i, rest)) :
    bytes = encode i ++ rest := by
  unfold decodeHeader at h
  split at h
  · cases h
  split at h
  · next hmagic =>
    split at h <;> cases h
    next hfields =>
    rw [← List.take_append_drop 4 bytes, hmagic, hfields, encode, be32Bytes_be32Read, be32Bytes_be32Read]
    rfl
  · cases h

/-- What is read at a boundary is the trailer or an opcode, and from its own encoding. -/
theorem decodeBoundary_eq_ok {bytes rest : List Byte} {i : Instr} (h : decodeBoundary bytes = .ok (i, rest)) :
    bytes = encode i ++ rest := by
  by_cases htrailer : bytes.take 8 = Config.trailer
  · rw [decodeBoundary_of_trailer htrailer] at h
    cases h
    rw [encode, ← htrailer, List.take_append_drop]
  by_cases hshort : bytes.length < 8
  · rw [decodeBoundary_of_short hshort] at h
    cases h
  cases bytes with
  | nil => exact absurd (by decide) hshort
  | cons t bytes =>
    rw [decodeBoundary_of_tag (Nat.not_lt.mp hshort) htrailer] at h
    obtain ⟨-, -, -, he⟩ := decodeTag_eq_ok h
    exact he

/-- At either position the bytes read are the instruction's encoding (R109). -/
theorem decode_eq_ok_bytes {p : Position} {bytes rest : List Byte} {i : Instr}
    (h : decode p bytes = .ok (i, rest)) : bytes = encode i ++ rest := by
  cases p with
  | first => exact decodeHeader_eq_ok h
  | boundary => exact decodeBoundary_eq_ok h

/-! ## The ranges of the tag byte (R102) -/

theorem length_encode (i : Instr) : (encode i).length = i.length := by cases i <;> rfl

/-- The top two bits of a tag are the quarter of the 256 values it lies in. -/
theorem tagBits_eq_iff {t : Byte} {q : BitVec 2} : t.extractLsb' 6 2 = q ↔ t.toNat / 64 = q.toNat := by
  rw [← BitVec.toNat_inj, BitVec.extractLsb'_toNat, Nat.shiftRight_eq_div_pow, Nat.mod_eq_of_lt (by omega)]

theorem ne_fullTag_of_lt {t : Byte} (h : t.toNat < 0xfe) : t ≠ 0xfe ∧ t ≠ 0xff :=
  ⟨by rintro rfl; contradiction, by rintro rfl; contradiction⟩

section
variable {t : Byte} {rest : List Byte}

theorem decodeTag_of_index_range (h : t.toNat < 0x40) :
    decodeTag t rest = .ok (.index (t.extractLsb' 0 6).toFin, rest) := by
  obtain ⟨hfe, hff⟩ := ne_fullTag_of_lt (t := t) (by omega)
  have hq : t.extractLsb' 6 2 = 0b00 := tagBits_eq_iff.mpr (by simp; omega)
  unfold decodeTag
  rw [if_neg hfe, if_neg hff, hq, if_neg (by decide), if_pos rfl]

theorem decodeTag_of_diff_range (h : 0x40 ≤ t.toNat ∧ t.toNat < 0x80) :
    ∃ dr dg db, decodeTag t rest = .ok (.diff dr dg db, rest) := by
  obtain ⟨hfe, hff⟩ := ne_fullTag_of_lt (t := t) (by omega)
  have hq : t.extractLsb' 6 2 = 0b01 := tagBits_eq_iff.mpr (by simp; omega)
  unfold decodeTag
  rw [if_neg hfe, if_neg hff, hq, if_neg (by decide), if_neg (by decide), if_pos rfl]
  exact ⟨_, _, _, rfl⟩

theorem decodeTag_of_luma_range (h : 0x80 ≤ t.toNat ∧ t.toNat < 0xc0) (u : Byte) :
    ∃ dg drg dbg, decodeTag t (u :: rest) = .ok (.luma dg drg dbg, rest) := by
  obtain ⟨hfe, hff⟩ := ne_fullTag_of_lt (t := t) (by omega)
  have hq : t.extractLsb' 6 2 = 0b10 := tagBits_eq_iff.mpr (by simp; omega)
  unfold decodeTag
  rw [if_neg hfe, if_neg hff, hq, if_neg (by decide), if_neg (by decide), if_neg (by decide)]
  exact ⟨_, _, _, rfl⟩

theorem decodeTag_of_run_range (h : 0xc0 ≤ t.toNat ∧ t.toNat < 0xfe) :
    decodeTag t rest = .ok (.run (t.toNat - 0xc0 + 1), rest) := by
  obtain ⟨hfe, hff⟩ := ne_fullTag_of_lt h.2
  have hq : t.extractLsb' 6 2 = 0b11 := tagBits_eq_iff.mpr (by simp; omega)
  have hlow : (t.extractLsb' 0 6).toNat = t.toNat - 0xc0 := by
    rw [BitVec.extractLsb'_toNat, Nat.shiftRight_zero]
    omega
  unfold decodeTag
  rw [if_neg hfe, if_neg hff, if_pos hq, hlow]

theorem decodeTag_of_rgb_tag (h : t.toNat = 0xfe) (r g b : Byte) :
    decodeTag t (r :: g :: b :: rest) = .ok (.rgb r g b, rest) :=
  if_pos (BitVec.eq_of_toNat_eq h)

theorem decodeTag_of_rgba_tag (h : t.toNat = 0xff) (r g b a : Byte) :
    decodeTag t (r :: g :: b :: a :: rest) = .ok (.rgba r g b a, rest) := by
  obtain rfl : t = 0xff := BitVec.eq_of_toNat_eq h
  rfl

end

/-- The six ranges exhaust the 256 tag values (R102). -/
theorem tag_ranges (t : Byte) :
    t.toNat < 0x40 ∨ (0x40 ≤ t.toNat ∧ t.toNat < 0x80) ∨ (0x80 ≤ t.toNat ∧ t.toNat < 0xc0) ∨
      (0xc0 ≤ t.toNat ∧ t.toNat < 0xfe) ∨ t.toNat = 0xfe ∨ t.toNat = 0xff := by
  omega

/-- No tag is illegal: four bytes behind it are enough for the payload of any. -/
theorem decodeTag_answers (t a b c d : Byte) (rest : List Byte) :
    ∃ i r, decodeTag t (a :: b :: c :: d :: rest) = .ok (i, r) := by
  rcases tag_ranges t with h | h | h | h | h | h
  · exact ⟨_, _, decodeTag_of_index_range h⟩
  · obtain ⟨dr, dg, db, hd⟩ := decodeTag_of_diff_range h
    exact ⟨_, _, hd⟩
  · obtain ⟨dg, drg, dbg, hl⟩ := decodeTag_of_luma_range h a
    exact ⟨_, _, hl⟩
  · exact ⟨_, _, decodeTag_of_run_range h⟩
  · exact ⟨_, _, decodeTag_of_rgb_tag h a b c⟩
  · exact ⟨_, _, decodeTag_of_rgba_tag h a b c d⟩

/-! ## The statements -/

/-- Settles O2: the header reads back by its byte order, the trailer as it stands, and an opcode by its tag. -/
theorem decodeOfEncodeIsTheInstruction : Obligations.DecodeOfEncodeIsTheInstruction := by
  intro i rest hw hfirst hop
  cases i with
  | hdr w h c cs => exact decodeHeader_encode w h c cs (hfirst rfl)
  | endMarker => exact decodeBoundary_encode_endMarker rest
  | rgb | rgba | index | diff | luma | run =>
    obtain ⟨hlen, ht⟩ := hop ⟨rfl, by simp⟩
    exact decodeBoundary_encode hw ⟨rfl, by simp⟩ hlen ht

/-- Settles O3: what each form of the decoder accepts is the fixed bytes of a form, which `encode` writes, and
fields whose packing it restores. -/
theorem decodedBytesAreTheEncoding : Obligations.DecodedBytesAreTheEncoding := by
  intro p bytes rest i h
  obtain ⟨hw, hp, -, -⟩ := decode_eq_ok h
  exact ⟨hw, hp, decode_eq_ok_bytes h⟩

/-- Settles O4: the tag always answers, its range says with what, and the encoding's length is what is
consumed. -/
theorem everyTagSelectsAnOpcode : Obligations.EveryTagSelectsAnOpcode := by
  intro t rest hlen htrailer
  obtain ⟨a, b, c, d, rest, rfl⟩ : ∃ a b c d r, rest = a :: b :: c :: d :: r := by
    match rest, hlen with
    | a :: b :: c :: d :: r, _ => exact ⟨a, b, c, d, r, rfl⟩
  obtain ⟨i, r, h⟩ := decodeTag_answers t a b c d rest
  have hdec : decode .boundary (t :: a :: b :: c :: d :: rest) = .ok (i, r) :=
    (decodeBoundary_of_tag hlen htrailer).trans h
  have hr : r = (t :: a :: b :: c :: d :: rest).drop i.length := by
    rw [decode_eq_ok_bytes hdec, ← length_encode, List.drop_left]
  refine ⟨i, hr ▸ hdec, fun ht => ?_, fun ht => ?_, fun ht => ?_, fun ht => ?_, fun ht => ?_, fun ht => ?_⟩
  · cases (decodeTag_of_index_range ht).symm.trans h
    exact ⟨rfl, rfl⟩
  · obtain ⟨dr, dg, db, hd⟩ := decodeTag_of_diff_range ht
    cases hd.symm.trans h
    exact ⟨⟨dr, dg, db, rfl⟩, rfl⟩
  · obtain ⟨dg, drg, dbg, hd⟩ := decodeTag_of_luma_range ht a
    cases hd.symm.trans h
    exact ⟨⟨dg, drg, dbg, rfl⟩, rfl⟩
  · cases (decodeTag_of_run_range ht).symm.trans h
    exact ⟨rfl, rfl⟩
  · cases (decodeTag_of_rgb_tag ht a b c).symm.trans h
    exact ⟨⟨a, b, c, rfl⟩, rfl⟩
  · cases (decodeTag_of_rgba_tag ht a b c d).symm.trans h
    exact ⟨⟨a, b, c, d, rfl⟩, rfl⟩

/-- Settles O1: the decoder evaluates each word. -/
theorem knownWordsDecode : Obligations.KnownWordsDecode := by
  unfold Obligations.KnownWordsDecode
  decide

end Sys2Proof

/-! Proofs of the statements of 40_header_trailer.md: the decoder's three rejections, the header and the end of
a decode call, and the header and the trailer an encode call appends. -/

namespace Sys2Proof

section
variable {bytes : List Byte}

/-! ## What the decoder rejects -/

theorem decodeHeader_of_short (h : bytes.length < 22) : decodeHeader bytes = .error .tooShort := if_pos h

theorem decodeHeader_of_wrong_magic (hlen : 22 ≤ bytes.length) (hm : bytes.take 4 ≠ Config.magic) :
    decodeHeader bytes = .error .badMagic :=
  (if_neg (Nat.not_lt.mpr hlen)).trans (if_neg hm)

/-- Behind the length and the magic nothing of the header is checked (40_header_trailer.md R125). -/
theorem decodeHeader_of_magic (hlen : 22 ≤ bytes.length) (hm : bytes.take 4 = Config.magic) :
    ∃ r, decodeHeader bytes = .ok r := by
  have hfields : 10 ≤ (bytes.drop 4).length := by rw [List.length_drop]; omega
  have hmin : ¬bytes.length < Config.minStream := Nat.not_lt.mpr hlen
  rw [decodeHeader, if_neg hmin, if_pos hm]
  generalize bytes.drop 4 = fields at hfields
  match fields, hfields with
  | _ :: _ :: _ :: _ :: _ :: _ :: _ :: _ :: _ :: _ :: _, _ => exact ⟨_, rfl⟩

/-- The length is checked before the magic (40_header_trailer.md R122). -/
theorem decodeHeader_eq_error {e : Reject} :
    decodeHeader bytes = .error e ↔
      (e = .tooShort ∧ bytes.length < 22) ∨ (e = .badMagic ∧ 22 ≤ bytes.length ∧ bytes.take 4 ≠ Config.magic) := by
  by_cases hlen : bytes.length < 22
  · rw [decodeHeader_of_short hlen]
    simp [hlen, Nat.not_le.mpr hlen, eq_comm]
  · have hlen' := Nat.not_lt.mp hlen
    by_cases hm : bytes.take 4 = Config.magic
    · obtain ⟨r, hr⟩ := decodeHeader_of_magic hlen' hm
      simp [hr, hlen, hm]
    · rw [decodeHeader_of_wrong_magic hlen' hm]
      simp [hlen, hlen', hm, eq_comm]

/-- Eight bytes at a boundary are the trailer or hold a whole opcode (43_decoder.md R200). -/
theorem decodeBoundary_answers (hlen : 8 ≤ bytes.length) : ∃ r, decodeBoundary bytes = .ok r := by
  by_cases ht : bytes.take 8 = Config.trailer
  · exact ⟨_, decodeBoundary_of_trailer ht⟩
  · match bytes, hlen with
    | t :: a :: b :: c :: d :: rest, hlen =>
      obtain ⟨i, r, h⟩ := decodeTag_answers t a b c d rest
      exact ⟨_, (decodeBoundary_of_tag hlen ht).trans h⟩

theorem decodeBoundary_eq_error {e : Reject} :
    decodeBoundary bytes = .error e ↔ e = .missingEndMarker ∧ bytes.length < 8 := by
  by_cases hlen : bytes.length < 8
  · rw [decodeBoundary_of_short hlen]
    simp [hlen, eq_comm]
  · obtain ⟨r, hr⟩ := decodeBoundary_answers (Nat.not_lt.mp hlen)
    simp [hr, hlen]

/-! ## The trailer -/

/-- `at_end` (40_header_trailer.md R127): END is read where the next eight bytes are the trailer. -/
theorem decodeBoundary_eq_endMarker :
    (∃ rest, decodeBoundary bytes = .ok (.endMarker, rest)) ↔ bytes.take 8 = Config.trailer := by
  constructor
  · rintro ⟨rest, h⟩
    rw [decodeBoundary_eq_ok h]
    rfl
  · intro h
    exact ⟨_, decodeBoundary_of_trailer h⟩

end

/-! ## Byte order (20_memory.md R64) -/

theorem toNat_append_byte {n : Nat} (x : BitVec n) (b : Byte) : (x ++ b).toNat = x.toNat * 2 ^ 8 + b.toNat := by
  rw [BitVec.toNat_append, ← Nat.shiftLeft_add_eq_or_of_lt b.isLt, Nat.shiftLeft_eq]

/-- The big-endian reading is the sum of the bytes at their weights. -/
theorem be32Read_eq_ofNat (b0 b1 b2 b3 : Byte) :
    be32Read b0 b1 b2 b3 =
      BitVec.ofNat 32 (b0.toNat * 2 ^ 24 + b1.toNat * 2 ^ 16 + b2.toNat * 2 ^ 8 + b3.toNat) := by
  apply BitVec.eq_of_toNat_eq
  rw [be32Read, toNat_append_byte, toNat_append_byte, toNat_append_byte, BitVec.toNat_ofNat]
  omega

/-- The four bytes of a word are its quotients by 2^24, 2^16, 2^8 and 1, mod 256. -/
theorem be32Bytes_eq_ofNat (v : Word32) :
    be32Bytes v = [BitVec.ofNat 8 (v.toNat / 2 ^ 24), BitVec.ofNat 8 (v.toNat / 2 ^ 16),
      BitVec.ofNat 8 (v.toNat / 2 ^ 8), BitVec.ofNat 8 v.toNat] := by
  simp only [be32Bytes, BitVec.extractLsb', Nat.shiftRight_eq_div_pow, Nat.pow_zero, Nat.div_one]

/-- The 14 bytes of the header (40_header_trailer.md R121). -/
theorem encode_hdr (w h : Word32) (c cs : Byte) :
    encode (.hdr w h c cs) = [0x71, 0x6f, 0x69, 0x66,
      BitVec.ofNat 8 (w.toNat / 2 ^ 24), BitVec.ofNat 8 (w.toNat / 2 ^ 16),
      BitVec.ofNat 8 (w.toNat / 2 ^ 8), BitVec.ofNat 8 w.toNat,
      BitVec.ofNat 8 (h.toNat / 2 ^ 24), BitVec.ofNat 8 (h.toNat / 2 ^ 16),
      BitVec.ofNat 8 (h.toNat / 2 ^ 8), BitVec.ofNat 8 h.toNat, c, cs] := by
  rw [encode, be32Bytes_eq_ofNat, be32Bytes_eq_ofNat]
  rfl

end Sys2Proof

namespace Sys2Proof.Machine

/-! ## HDR and END in either call -/

/-- What is no opcode is one of the two pseudo-instructions (30_encoding.md R102). -/
theorem not_isOpcode_iff {i : Instr} : ¬isOpcode i ↔ (∃ w h c cs, i = .hdr w h c cs) ∨ i = .endMarker := by
  cases i <;> simp [Instr.position]

section
variable {s : State}

/-- The header is what an encode call appends once both checks pass (60_exceptions.md R274, R275). -/
theorem encodeMove_of_checked (hm : s.mode = .enc) (h0 : s.snkLen = 0) (hc : channelsDefined s)
    (hsize : s.srcLen = s.width.toNat * s.height.toNat * s.channels.toNat) :
    encodeMove s = .next (emit (.hdr s.width s.height s.channels s.colorspace) s) := by
  rw [encodeMove, if_pos h0, beginEncode, if_neg (not_not.mpr hc), if_neg (not_not.mpr hsize), exec_of_enc hm]

/-- At the end of the input an encode call appends the trailer and ends (44_byte_streamer.md R245). -/
theorem encodeMove_of_exhausted (hm : s.mode = .enc) (h0 : s.snkLen ≠ 0) (hrp : s.srcLen ≤ s.rp) :
    encodeMove s = .next (finish (emit .endMarker s)) := by
  rw [encodeMove, if_neg h0, if_neg (Nat.not_lt.mpr hrp), exec_of_enc hm]

end

/-! ## The statements -/

/-- Settles O5: each position answers or rejects by its length and, at offset 0, then by the magic. -/
theorem decoderRejectsOnlyByItsThreeNames : Obligations.DecoderRejectsOnlyByItsThreeNames :=
  fun _ => ⟨fun _ => decodeHeader_eq_error, fun _ => decodeBoundary_eq_error⟩

/-- Settles O17: the bytes are the encoding of the header with the two words they spell, which reads back. -/
theorem decodedHeader : Obligations.DecodedHeader := by
  refine ⟨fun w0 w1 w2 w3 h0 h1 h2 h3 c cs rest hrest => ?_, fun w h c cs s hm => exec_dec_hdr hm w h c cs⟩
  have h := decodeHeader_encode (be32Read w0 w1 w2 w3) (be32Read h0 h1 h2 h3) c cs hrest
  rw [encode, be32Bytes_be32Read, be32Bytes_be32Read, be32Read_eq_ofNat, be32Read_eq_ofNat] at h
  exact h

/-- Settles O18: eight bytes that are the trailer, and a finish that touches STATE alone. -/
theorem decodedEnd : Obligations.DecodedEnd := by
  refine ⟨fun bytes => decodeBoundary_eq_endMarker.trans ⟨fun h => ⟨?_, h⟩, And.right⟩, fun s hm hc => ?_⟩
  · have hlen : (bytes.take 8).length = 8 := congrArg List.length h
    rw [List.length_take] at hlen
    omega
  · rw [exec_dec_endMarker hm]
    exact finishDecode_of_meaning (.inl hc)

/-- Settles O20: the header parse loads the descriptor and RP, the end writes STATE, and neither anything
else. -/
theorem decodedHeaderAndEndFrame : Obligations.DecodedHeaderAndEndFrame := by
  intro i s t hi hm ht
  rcases not_isOpcode_iff.mp hi with ⟨w, h, c, cs, rfl⟩ | rfl
  · rw [exec_dec_hdr hm] at ht
    cases ht
    simp
  · rw [exec_dec_endMarker hm] at ht
    obtain rfl := finishDecode_eq_next ht
    simp

/-- Settles O27: the step emits HDR, whose encoding is the 14 bytes, into a sink of length 0. -/
theorem headerIsSerialized : Obligations.HeaderIsSerialized := by
  intro s hs h0 hc hsize
  rw [step_of_enc hs.1 hs.2, encodeMove_of_checked hs.2 h0 hc hsize, emit, memWrite, encode_hdr, h0]
  rfl

/-- Settles O35: the step emits END and finishes the call. -/
theorem trailerEndsTheEncodeCall : Obligations.TrailerEndsTheEncodeCall := by
  intro s hs h0 hrp
  rw [step_of_enc hs.1 hs.2, encodeMove_of_exhausted hs.2 h0 hrp]
  rfl

end Sys2Proof.Machine

/-! Proofs of the statements of 41_running_cache.md: the hash, the insert, and which step of either call and
which move of the host writes CACHE. -/

namespace Sys2Proof.Machine

/-! ## The hash -/

theorem hashSlot_val (p : Pixel) :
    (hashSlot p).val = (p.r.toNat * 3 + p.g.toNat * 5 + p.b.toNat * 7 + p.a.toNat * 11) % 64 := rfl

/-- The weighted sum taken, wrapping, in words of `w` bits (41_running_cache.md R140). -/
def hashSumIn (w : Nat) (p : Pixel) : BitVec w :=
  3 * p.r.setWidth w + 5 * p.g.setWidth w + 7 * p.b.setWidth w + 11 * p.a.setWidth w

/-- The low 6 bits of the sum taken in a width that has them are the sum taken in 6 bits: cutting a word down
commutes with addition and multiplication. -/
theorem setWidth_hashSumIn (p : Pixel) {w : Nat} (hw : 6 ≤ w) :
    (hashSumIn w p).setWidth 6 = hashSumIn 6 p := by
  simp only [hashSumIn, BitVec.setWidth_add _ _ hw, BitVec.setWidth_mul _ _ hw,
    BitVec.setWidth_setWidth_of_le _ hw, BitVec.ofNat_eq_ofNat, BitVec.setWidth_ofNat_of_le hw]

/-- In 6 bits the sum wraps to the hash. -/
theorem toNat_hashSumIn_six (p : Pixel) : (hashSumIn 6 p).toNat = (hashSlot p).val := by
  rw [hashSlot_val]
  simp only [hashSumIn, BitVec.toNat_add, BitVec.toNat_mul, BitVec.toNat_setWidth, BitVec.ofNat_eq_ofNat,
    BitVec.toNat_ofNat]
  omega

/-- A width of 6 bits or more keeps the residue mod 64. -/
theorem toNat_hashSumIn_mod (p : Pixel) {w : Nat} (hw : 6 ≤ w) :
    (hashSumIn w p).toNat % 64 = (hashSlot p).val := by
  rw [← toNat_hashSumIn_six, ← setWidth_hashSumIn p hw, BitVec.toNat_setWidth]

section
variable {s t : State}

/-! ## An encode call -/

/-- Once its pixel is read, a step of the pass writes CACHE where PREV takes a pixel that missed it, and nowhere
else (42_encoder.md R166, R167). -/
theorem cache_of_resolvePixel (hm : s.mode = .enc) (ht : resolvePixel s = .next t) :
    t.cache = if t.prev = s.prev ∨ lookup (hashSlot t.prev) s = t.prev then s.cache
      else s.cache.set (hashSlot t.prev) t.prev := by
  by_cases hp : s.px = s.prev
  · rw [resolvePixel_of_eq hm hp] at ht
    cases ht
    split <;> simp [hp]
  · obtain ⟨u, v, hu, hv, rfl⟩ := resolvePixel_eq_next_of_ne hp ht
    have hflush : u.mode = .enc ∧ u.px = s.px ∧ u.cache = s.cache := by
      rw [flushRun_of_enc hm] at hu
      cases hu
      split <;> exact ⟨hm, rfl, rfl⟩
    obtain ⟨hmu, hpx, hcache⟩ := hflush
    have hlook : lookup (hashSlot s.px) u = lookup (hashSlot s.px) s := by rw [lookup, hcache, lookup]
    rw [codePixel_of_enc hmu, hpx, hlook] at hv
    cases hv
    by_cases hit : lookup (hashSlot s.px) s = s.px <;> simp [hp, hit, hpx, hcache]

/-- The same of every move of an encode call: a failure, the header and the trailer keep PREV and CACHE. -/
theorem cache_of_encodeMove (hm : s.mode = .enc) (ht : encodeMove s = .next t) :
    t.cache = if t.prev = s.prev ∨ lookup (hashSlot t.prev) s = t.prev then s.cache
      else s.cache.set (hashSlot t.prev) t.prev := by
  rcases encodeMove_eq_next hm ht with
    ⟨-, f, -, rfl⟩ | ⟨-, -, -, rfl⟩ | ⟨-, -, -, -, p, -, -, hres⟩ | ⟨-, -, rfl⟩
  · simp
  · simp
  · exact cache_of_resolvePixel (s := takePixel s.channels.toNat p s) hm hres
  · simp

/-! ## A decode call -/

/-- The opcodes that insert the pixel they stand for (43_decoder.md R203, R204). -/
def insertsPixel : Instr → Bool
  | .rgb .. | .rgba .. | .diff .. | .luma .. => true
  | .index .. | .run .. | .hdr .. | .endMarker => false

theorem cache_of_newPixel {len : Nat} {p : Pixel} (ht : newPixel len p s = .next t) :
    t.cache = s.cache.set (hashSlot t.prev) t.prev := by
  obtain ⟨bytes, -, rfl⟩ := newPixel_eq_next.mp ht
  rfl

theorem cache_of_oldPixel {n : Nat} {p : Pixel} (hn : n ≠ 0) (ht : oldPixel n p s = .next t) :
    t.cache = s.cache := by
  obtain ⟨bytes, -, rfl⟩ := (oldPixel_eq_next hn).mp ht
  rfl

/-- RGB, RGBA, DIFF and LUMA insert the pixel that is then in PREV; what else is decoded leaves CACHE alone. -/
theorem cache_of_exec_dec {i : Instr} (hm : s.mode = .dec) (hi : i.WellFormed) (ht : exec i s = .next t) :
    t.cache = if insertsPixel i then s.cache.set (hashSlot t.prev) t.prev else s.cache := by
  cases i with
  | rgb r g b => rw [exec_dec_rgb hm] at ht; exact cache_of_newPixel ht
  | rgba r g b a => rw [exec_dec_rgba hm] at ht; exact cache_of_newPixel ht
  | diff dr dg db => rw [exec_dec_diff hm] at ht; exact cache_of_newPixel ht
  | luma dg drg dbg => rw [exec_dec_luma hm] at ht; exact cache_of_newPixel ht
  | index k => rw [exec_dec_index hm] at ht; exact cache_of_oldPixel Nat.one_ne_zero ht
  | run n =>
    have hn : 1 ≤ n ∧ n ≤ 62 := of_decide_eq_true hi
    rw [exec_dec_run hm] at ht
    exact cache_of_oldPixel (by omega) ht
  | hdr w h c cs =>
    rw [exec_dec_hdr hm] at ht
    cases ht
    rfl
  | endMarker =>
    rw [exec_dec_endMarker hm] at ht
    obtain rfl := finishDecode_eq_next ht
    rfl

theorem cache_of_decodeMove_ok {i : Instr} {rest : List Byte} (hm : s.mode = .dec)
    (hdec : decode (position s) (window s) = .ok (i, rest)) (ht : decodeMove s = .next t) :
    t.cache = if insertsPixel i then s.cache.set (hashSlot t.prev) t.prev else s.cache := by
  obtain ⟨hwf, -⟩ := decode_eq_ok hdec
  rw [decodeMove_of_ok hdec] at ht
  exact cache_of_exec_dec hm hwf ht

theorem cache_of_decodeMove_error {e : Reject} (hdec : decode (position s) (window s) = .error e)
    (ht : decodeMove s = .next t) : t.cache = s.cache := by
  rw [decodeMove_of_error hdec] at ht
  cases ht
  rfl

/-! ## Outside a call -/

theorem cache_of_hostMove {m : HostMove} (h : m ≠ .start) (s : State) : (hostMove m s).cache = s.cache := by
  cases m with
  | start => exact absurd rfl h
  | setMode | setWidth | setHeight | setChannels | setColorspace | fillSource | powerOnReset => rfl

/-- A quiescent block clears CACHE where the host's next move is `start`, and keeps it otherwise. -/
theorem cache_of_quiescent (hs : s.status ≠ .running) (ht : step s = .next t) :
    ((∃ ms, s.host = .start :: ms) → t.cache = Vector.replicate 64 Pixel.zero) ∧
      ((¬∃ ms, s.host = .start :: ms) → t.cache = s.cache) := by
  constructor
  · rintro ⟨ms, hh⟩
    rw [step_of_host_cons hs hh] at ht
    cases ht
    rfl
  · intro hno
    cases hh : s.host with
    | nil =>
      rw [step_of_host_nil hs hh] at ht
      cases ht
      rfl
    | cons m ms =>
      rw [step_of_host_cons hs hh] at ht
      cases ht
      exact cache_of_hostMove (fun hm => hno ⟨ms, hm ▸ hh⟩) _

end

/-! ## The statements -/

/-- Settles O36: the slot is the hash, whose sum the statement writes with its weights in front. -/
theorem insertWritesOneSlot : Obligations.InsertWritesOneSlot := by
  intro p k s
  have hk : k = hashSlot p ↔
      k.val = (3 * p.r.toNat + 5 * p.g.toNat + 7 * p.b.toNat + 11 * p.a.toNat) % 64 := by
    simp only [Fin.ext_iff, hashSlot_val, Nat.mul_comm]
  simp only [lookup_insertPixel, hk]

/-- Settles O37: the residue mod 64 is the low 6 bits, which a sum in any wider word shares. -/
theorem hashIsTheSumMod64 : Obligations.HashIsTheSumMod64 :=
  fun p => ⟨hashSlot_val p, fun _ hw => (toNat_hashSumIn_mod p hw).symm⟩

/-- Settles O39: what each move of an encode call, each instruction or rejection of a decode call and each move
of the host does to CACHE. -/
theorem cacheIsWrittenOnlyByNewPixels : Obligations.CacheIsWrittenOnlyByNewPixels := by
  intro s t ht
  refine ⟨fun ⟨hr, hm⟩ => ?_, fun ⟨hr, hm⟩ r hdec => ?_, fun hs => cache_of_quiescent hs ht⟩
  · rw [step_of_enc hr hm] at ht
    have hcache := cache_of_encodeMove hm ht
    exact ⟨fun hold => hcache.trans (if_pos hold),
      fun hne hmiss => hcache.trans (if_neg (not_or.mpr ⟨hne, hmiss⟩))⟩
  · rw [step_of_dec hr hm] at ht
    refine ⟨fun i rest hok hi => ?_, fun i rest hok hi => ?_, fun e herr =>
      cache_of_decodeMove_error (hdec.trans herr) ht⟩
    · have hins : insertsPixel i = true := by
        rcases hi with ⟨_, _, _, rfl⟩ | ⟨_, _, _, _, rfl⟩ | ⟨_, _, _, rfl⟩ | ⟨_, _, _, rfl⟩ <;> rfl
      exact (cache_of_decodeMove_ok hm (hdec.trans hok) ht).trans (if_pos hins)
    · have hins : insertsPixel i ≠ true := by
        rw [not_isOpcode_iff] at hi
        rcases hi with ⟨_, rfl⟩ | ⟨_, rfl⟩ | ⟨_, _, _, _, rfl⟩ | rfl <;> exact Bool.false_ne_true
      exact (cache_of_decodeMove_ok hm (hdec.trans hok) ht).trans (if_neg hins)

end Sys2Proof.Machine

/-! Proofs of the statements of 42_encoder.md: the instruction an encode step selects for a pixel, the bytes it
emits for it, and the bound on the sink these give over a call. -/

namespace Sys2Proof

/-! ## The emitted bytes as arithmetic -/

/-- The low 6 bits of a RUN byte are the run length minus one (R175); a run of 64 wraps as the register does. -/
theorem encode_run_succ : ∀ n : BitVec 6, encode (.run (n + 1).toNat) = [0xc0 ||| n.setWidth 8] := by decide

/-- DIFF's three fields of two bits lie side by side below its tag (R170). -/
theorem encode_diff {dr dg db : Int} (h : (-2 ≤ dr ∧ dr ≤ 1) ∧ (-2 ≤ dg ∧ dg ≤ 1) ∧ (-2 ≤ db ∧ db ≤ 1)) :
    encode (.diff dr dg db) = [BitVec.ofInt 8 (0x40 + 16 * (dr + 2) + 4 * (dg + 2) + (db + 2))] := by
  obtain ⟨⟨_, _⟩, ⟨_, _⟩, ⟨_, _⟩⟩ := h
  interval_cases dr <;> interval_cases dg <;> interval_cases db <;> rfl

/-- LUMA's green field lies below its tag, and the two inner differences share the second byte (R171). -/
theorem encode_luma {dg drg dbg : Int}
    (h : (-32 ≤ dg ∧ dg ≤ 31) ∧ (-8 ≤ drg ∧ drg ≤ 7) ∧ (-8 ≤ dbg ∧ dbg ≤ 7)) :
    encode (.luma dg drg dbg) =
      [BitVec.ofInt 8 (0x80 + (dg + 32)), BitVec.ofInt 8 (16 * (drg + 8) + (dbg + 8))] := by
  obtain ⟨⟨_, _⟩, ⟨_, _⟩, ⟨_, _⟩⟩ := h
  have htag : 0x80 ||| biased 32 dg = BitVec.ofInt 8 (0x80 + (dg + 32)) := by
    interval_cases dg <;> rfl
  have hinner : (biased 8 drg <<< 4) ||| biased 8 dbg = BitVec.ofInt 8 (16 * (drg + 8) + (dbg + 8)) := by
    interval_cases drg <;> interval_cases dbg <;> rfl
  rw [encode, htag, hinner]

end Sys2Proof

namespace Sys2Proof.Machine

/-! ## The opcode of a pixel that missed the cache -/

/-- The wrapped difference of two channels is 0 only where they are equal. -/
theorem channelDiff_eq_zero_iff {new old : Byte} : channelDiff new old = 0 ↔ new = old := by
  rw [channelDiff, s8, ← BitVec.toNat_inj]
  split <;> omega

section
variable {px prev : Pixel}

theorem missOpcode_of_alpha_ne (ha : px.a ≠ prev.a) : missOpcode px prev = .rgba px.r px.g px.b px.a :=
  if_pos (mt channelDiff_eq_zero_iff.mp ha)

theorem missOpcode_of_alpha_eq (ha : px.a = prev.a) :
    missOpcode px prev =
      if fitsDiff (diffs px prev) then .diff (diffs px prev).dr (diffs px prev).dg (diffs px prev).db
      else if fitsLuma (diffs px prev) then .luma (diffs px prev).dg ((diffs px prev).dr - (diffs px prev).dg)
        ((diffs px prev).db - (diffs px prev).dg)
      else .rgb px.r px.g px.b :=
  if_neg (not_not.mpr (channelDiff_eq_zero_iff.mpr ha))

/-- The longest opcode of a miss is RGBA, and RGB where alpha is kept. -/
theorem length_missOpcode_le (px prev : Pixel) :
    (missOpcode px prev).length ≤ 5 ∧ (px.a = prev.a → (missOpcode px prev).length ≤ 4) := by
  rcases missOpcode_cases px prev with ⟨e, ha⟩ | ⟨e, -⟩ | ⟨e, -⟩ | ⟨e, -⟩ <;> rw [e]
  · exact ⟨le_rfl, fun heq => absurd (channelDiff_eq_zero_iff.mpr heq) ha⟩
  all_goals simp [Instr.length]

end

/-! ## One step of the encode pass -/

/-- The state behind the pixel in front of an encode call: PX and PREV hold it, RP stands behind it, and RUN, CACHE
and the bytes appended are those its step gives (R160, R176). -/
def pixelResolved (run : BitVec 6) (cache : Vector Pixel 64) (bytes : List Byte) (s : State) : State :=
  { s with
    px := nextPixel s
    prev := nextPixel s
    rp := behindPixel s
    run := run
    cache := cache
    snk := s.snk ++ bytes
    snkLen := s.snkLen + bytes.length }

section
variable {s t : State}

/-- The open run's byte goes out before the pixel's own bytes. -/
theorem pixelResolved_runBytes (cache : Vector Pixel 64) (bytes : List Byte) (s : State) :
    pixelResolved 0 cache (runBytes s ++ bytes) s = { s with
      px := nextPixel s
      prev := nextPixel s
      rp := behindPixel s
      run := 0
      cache := cache
      snk := s.snk ++ runBytes s ++ bytes
      snkLen := s.snkLen + (runBytes s).length + bytes.length } := by
  rw [pixelResolved, List.length_append, List.append_assoc, Nat.add_assoc]

theorem length_runBytes (s : State) : (runBytes s).length = if s.run = 0 then 0 else 1 := by
  rw [runBytes]
  split <;> rfl

/-- The flush of R164 appends `runBytes` and closes the run, if one is open. -/
theorem flush_eq_memWrite_runBytes (s : State) :
    (if s.run = 0 then s else emitRun s.run.toNat s) = { memWrite (runBytes s) s with run := 0 } := by
  by_cases h : s.run = 0
  · rw [if_pos h, runBytes, if_pos h, memWrite_nil, ← h]
  · have hbyte : encode (.run s.run.toNat) = [0xc0 ||| (s.run - 1).setWidth 8] := by
      rw [← encode_run_succ, BitVec.sub_add_cancel]
    rw [if_neg h, emitRun, emit, runBytes, if_neg h, hbyte]

/-- A whole pixel chunk in front of an encode call is read as the pixel that lies there (R161). -/
theorem readPixel_of_atPixel (h : atPixel s) :
    readPixel s = .next (takePixel s.channels.toNat (nextPixel s) s) := by
  obtain ⟨-, -, hc | hc, hle⟩ := h
  · rw [hc] at hle
    rw [readPixel_of_three hc hle, nextPixel, hc]
    rfl
  · rw [hc] at hle
    rw [readPixel_of_four hc hle, nextPixel, if_pos hc, hc]
    rfl

theorem channels_pos (h : channelsDefined s) : 0 < s.channels.toNat := by
  rcases h with h | h <;> rw [h] <;> decide

theorem step_of_atPixel (h : atPixel s) :
    step s = resolvePixel (takePixel s.channels.toNat (nextPixel s) s) := by
  obtain ⟨hs, h0, hc, hle⟩ := h
  have hlt : s.rp < s.srcLen := by have := channels_pos hc; omega
  rw [step_of_enc hs.1 hs.2, encodeMove, if_neg h0, if_pos hlt, stepEnc, readPixel_of_atPixel ⟨hs, h0, hc, hle⟩,
    andThen_next]

/-- A repeated pixel that neither fills the run nor ends the input is counted (R162). -/
theorem step_of_run_continued (h : atPixel s) (heq : nextPixel s = s.prev) (hmax : s.run + 1 ≠ 62)
    (hend : behindPixel s ≠ s.srcLen) : step s = .next (pixelResolved (s.run + 1) s.cache [] s) := by
  rw [step_of_atPixel h, resolvePixel_of_eq (by exact h.1.2) (by exact heq),
    if_neg (by exact not_or.mpr ⟨hmax, hend⟩), pixelResolved, List.append_nil]
  rfl

/-- A repeated pixel that fills the run or ends the input is counted and the run flushed (R163, R165). -/
theorem step_of_run_flushed (h : atPixel s) (heq : nextPixel s = s.prev)
    (hflush : s.run + 1 = 62 ∨ behindPixel s = s.srcLen) :
    step s = .next (pixelResolved 0 s.cache [0xc0 ||| s.run.setWidth 8] s) := by
  rw [step_of_atPixel h, resolvePixel_of_eq (by exact h.1.2) (by exact heq), if_pos (by exact hflush), emitRun, emit,
    takePixel_run, encode_run_succ]
  rfl

/-- A differing pixel that its slot holds: the open run's byte, then INDEX (R164, R166). -/
theorem step_of_hit (h : atPixel s) (hne : nextPixel s ≠ s.prev)
    (hit : s.cache[hashSlot (nextPixel s)] = nextPixel s) :
    step s = .next (pixelResolved 0 s.cache (runBytes s ++ encode (.index (hashSlot (nextPixel s)))) s) := by
  rw [step_of_atPixel h, resolvePixel_of_ne (by exact h.1.2) (by exact hne) rfl, if_pos (by exact hit),
    flush_eq_memWrite_runBytes, pixelResolved_runBytes]
  rfl

/-- A differing pixel that its slot does not hold: the open run's byte, then the opcode of a miss, and the pixel is
inserted (R164, R167). -/
theorem step_of_miss (h : atPixel s) (hne : nextPixel s ≠ s.prev)
    (hmiss : s.cache[hashSlot (nextPixel s)] ≠ nextPixel s) :
    step s = .next (pixelResolved 0 (s.cache.set (hashSlot (nextPixel s)) (nextPixel s))
      (runBytes s ++ encode (missOpcode (nextPixel s) s.prev)) s) := by
  rw [step_of_atPixel h, resolvePixel_of_ne (by exact h.1.2) (by exact hne) rfl, if_neg (by exact hmiss),
    flush_eq_memWrite_runBytes, pixelResolved_runBytes]
  rfl

end

/-! ## The bound on an encode call -/

/-- A run of one step more is the step, then the run from where it leads. -/
theorem run_succ_eq_next {M : Host.Core} {n : Nat} {s t : M.State} :
    M.run (n + 1) s = .next t ↔ ∃ u, M.step s = .next u ∧ M.run n u = .next t := by
  rw [Host.Core.run]
  cases M.step s <;> simp

/-- What every step keeps, a run keeps. -/
theorem run_keeps {M : Host.Core} {P : M.State → Prop} (hstep : ∀ s t, P s → M.step s = .next t → P t) {n : Nat}
    {s t : M.State} (hs : P s) (ht : M.run n s = .next t) : P t := by
  induction n generalizing s with
  | zero =>
    cases ht
    exact hs
  | succ n ih =>
    obtain ⟨u, hu, hrest⟩ := run_succ_eq_next.mp ht
    exact ih (hstep s u hs hu) hrest

section
variable {s t : State}

/-- The invariant holds where an encode call begins, whatever stood in the machine before. -/
theorem inv_encodeCall (w h : Word32) (c cs : Byte) (pixels : List Byte) (s : State) :
    Inv (encodeCall w h c cs pixels s) := by
  have hbelow : (Memory.ofList 0 pixels).below pixels.length = true := by
    simpa using Memory.below_ofList 0 pixels
  exact (inv_iff_of_encoding_begin (by exact ⟨rfl, rfl⟩) (by rfl)).mpr
    ⟨⟨Memory.wf_ofList pixels, hbelow, rfl, fun i => .inl (lookup_start i _)⟩, rfl, encCache_start _, rfl, rfl⟩

/-- A pixel has at most one byte per channel and one more to spend, where a run left open counts as the byte it will
be flushed as: RGBA needs five bytes, but in a three-channel call alpha is 255 throughout (R44 (c)). -/
theorem step_of_atPixel_bytes_le (hi : Inv s) (h : atPixel s) :
    ∃ run cache bytes, step s = .next (pixelResolved run cache bytes s) ∧
      bytes.length + (if run = 0 then 0 else 1) ≤ (runBytes s).length + (s.channels.toNat + 1) := by
  have ⟨⟨hr, hm⟩, _, hc, _⟩ := h
  by_cases heq : nextPixel s = s.prev
  · by_cases hflush : s.run + 1 = 62 ∨ behindPixel s = s.srcLen
    · refine ⟨_, _, _, step_of_run_flushed h heq hflush, ?_⟩
      simp only [List.length_singleton, if_true]
      omega
    · obtain ⟨hmax, hend⟩ := not_or.mp hflush
      refine ⟨_, _, _, step_of_run_continued h heq hmax hend, ?_⟩
      split <;> rw [List.length_nil] <;> omega
  · by_cases hit : s.cache[hashSlot (nextPixel s)] = nextPixel s
    · refine ⟨_, _, _, step_of_hit h heq hit, ?_⟩
      simp [length_encode, Instr.length]
    · refine ⟨_, _, _, step_of_miss h heq hit, ?_⟩
      have hop : (missOpcode (nextPixel s) s.prev).length ≤ s.channels.toNat + 1 := by
        obtain ⟨hrgba, hrgb⟩ := length_missOpcode_le (nextPixel s) s.prev
        rcases hc with hc | hc
        · have ha : (nextPixel s).a = s.prev.a := by
            rw [(hi.encAlpha hr hm hc).1, nextPixel, hc]
            rfl
          rw [hc]
          exact hrgb ha
        · rw [hc]
          exact hrgba
      rw [List.length_append, length_encode, if_pos rfl]
      omega

/-- How an encode call of a descriptor stands within the bound of R177: while it runs, behind its header, the sink
and the byte of an open run are paid for by the pixels read; when it has ended the trailer is counted too. -/
structure EncodeWithin (w h : Word32) (c : Byte) (s : State) : Prop where
  inv : Inv s
  host : s.host = []
  mode : s.mode = .enc
  width : s.width = w
  height : s.height = h
  channels : s.channels = c
  body : s.status = .running → s.snkLen ≠ 0 →
    s.snkLen + (runBytes s).length ≤ 14 + s.rp / c.toNat * (c.toNat + 1)
  ended : s.status ≠ .running → s.snkLen ≤ 22 + w.toNat * h.toNat * (c.toNat + 1)

theorem encodeWithin_encodeCall (w h : Word32) (c cs : Byte) (pixels : List Byte) (s : State) :
    EncodeWithin w h c (encodeCall w h c cs pixels s) where
  inv := inv_encodeCall w h c cs pixels s
  host := rfl
  mode := rfl
  width := rfl
  height := rfl
  channels := rfl
  body _ h0 := absurd rfl h0
  ended h := absurd rfl h

variable {w h : Word32} {c : Byte}

/-- While the call runs the pixels read are WIDTH*HEIGHT at most, so the trailer has room left. -/
theorem EncodeWithin.snkLen_of_running (hw : EncodeWithin w h c s) (hr : s.status = .running) :
    s.snkLen ≤ 14 + w.toNat * h.toNat * (c.toNat + 1) := by
  by_cases h0 : s.snkLen = 0
  · omega
  · obtain ⟨hc, hsize, -⟩ := hw.inv.encBody hr hw.mode h0
    have hcount : s.rp / c.toNat ≤ w.toNat * h.toNat := by
      have hrp := hw.inv.rp_le hr
      rw [hsize, hw.width, hw.height, hw.channels] at hrp
      exact Nat.div_le_of_le_mul (by rwa [Nat.mul_comm])
    have hbody := hw.body hr h0
    have hpaid := Nat.mul_le_mul_right (c.toNat + 1) hcount
    omega

theorem EncodeWithin.snkLen_le (hw : EncodeWithin w h c s) : s.snkLen ≤ 22 + w.toNat * h.toNat * (c.toNat + 1) := by
  by_cases hr : s.status = .running
  · have := hw.snkLen_of_running hr
    omega
  · exact hw.ended hr

/-- A pixel keeps the call within the bound: RP pays for it. -/
theorem EncodeWithin.of_atPixel (hw : EncodeWithin w h c s) (ha : atPixel s) (ht : step s = .next t) :
    EncodeWithin w h c t := by
  have ⟨⟨hr, _⟩, h0, hc, _⟩ := ha
  obtain ⟨run, cache, bytes, hstep, hspent⟩ := step_of_atPixel_bytes_le hw.inv ha
  have hinv : Inv t := stepKeepsTheInvariant s t hw.inv ht
  have hbody := hw.body hr h0
  have hpos := channels_pos hc
  cases hstep.symm.trans ht
  refine { hw with inv := hinv, body := fun _ _ => ?_, ended := fun hq => absurd hr hq }
  rw [hw.channels] at hspent hpos
  have hrp : (pixelResolved run cache bytes s).rp / c.toNat = s.rp / c.toNat + 1 := by
    rw [pixelResolved, behindPixel, hw.channels]
    exact Nat.add_div_right _ hpos
  have hopen : (runBytes (pixelResolved run cache bytes s)).length = if run = 0 then 0 else 1 := length_runBytes _
  have hlen : (pixelResolved run cache bytes s).snkLen = s.snkLen + bytes.length := rfl
  rw [hopen, hrp, hlen, Nat.succ_mul]
  omega

theorem EncodeWithin.of_step (hw : EncodeWithin w h c s) (ht : step s = .next t) : EncodeWithin w h c t := by
  have hinv : Inv t := stepKeepsTheInvariant s t hw.inv ht
  by_cases hr : s.status = .running
  · have hmove := ht
    rw [step_of_enc hr hw.mode] at hmove
    rcases encodeMove_eq_next hw.mode hmove with
      ⟨-, f, -, rfl⟩ | ⟨h0, -, -, rfl⟩ | ⟨h0, -, hc, hle, -⟩ | ⟨-, -, rfl⟩
    · exact { hw with inv := hinv, body := nofun, ended := fun _ => Nat.zero_le _ }
    · obtain ⟨-, hrun⟩ := hw.inv.encBegin hr hw.mode h0
      refine { hw with inv := hinv, body := fun _ _ => ?_, ended := fun hq => absurd hr hq }
      simp [length_runBytes, hrun, h0, length_encode, Instr.length]
    · exact hw.of_atPixel ⟨⟨hr, hw.mode⟩, h0, hc, hle⟩ ht
    · have hroom := hw.snkLen_of_running hr
      refine { hw with inv := hinv, body := nofun, ended := fun _ => ?_ }
      rw [finish_snkLen, emit_snkLen, length_encode, Instr.length]
      omega
  · rw [step_of_host_nil hr hw.host] at ht
    cases ht
    exact hw

end

/-! ## The statements -/

/-- Settles O51: a call just started is within the bound, and every step keeps it there. -/
theorem encodeOutputIsBounded : Obligations.EncodeOutputIsBounded := by
  intro w h c cs pixels s t n ht
  have hw : EncodeWithin w h c t :=
    run_keeps (M := core) (fun _ _ => EncodeWithin.of_step) (encodeWithin_encodeCall w h c cs pixels s) ht
  exact hw.snkLen_le

/-- Settles O28: the pixel is counted and no byte goes out. -/
theorem runContinuesSilently : Obligations.RunContinuesSilently := by
  intro s h heq hmax hend
  rw [step_of_run_continued h heq hmax hend, pixelResolved, heq, List.append_nil]
  rfl

/-- Settles O29: the byte is RUN's for the counted length, one less in its low bits. -/
theorem runIsFlushed : Obligations.RunIsFlushed := by
  intro s h heq hflush
  rw [step_of_run_flushed h heq hflush, pixelResolved, heq]
  rfl

/-- Settles O30: the hit leaves CACHE alone, and INDEX is one byte, the slot. -/
theorem cacheHitEmitsIndex : Obligations.CacheHitEmitsIndex := by
  intro s h hne hit
  rw [step_of_hit h hne hit, pixelResolved_runBytes]
  rfl

/-- Settles O31: a changed alpha selects RGBA, whose bytes are the tag and the four channels. -/
theorem alphaChangeEmitsRgba : Obligations.AlphaChangeEmitsRgba := by
  intro s h hne hmiss ha
  rw [step_of_miss h hne hmiss, missOpcode_of_alpha_ne ha, pixelResolved_runBytes]
  rfl

/-- Settles O32: small differences select DIFF, whose byte packs them. -/
theorem smallDifferenceEmitsDiff : Obligations.SmallDifferenceEmitsDiff := by
  intro s h hne hmiss ha dr dg db hd
  have hop : missOpcode (nextPixel s) s.prev = .diff dr dg db :=
    (missOpcode_of_alpha_eq ha).trans (if_pos (decide_eq_true hd))
  rw [step_of_miss h hne hmiss, hop, encode_diff hd, pixelResolved_runBytes]
  rfl

/-- Settles O33: where DIFF does not fit and LUMA does, LUMA's two bytes pack the three differences. -/
theorem lumaDifferenceEmitsLuma : Obligations.LumaDifferenceEmitsLuma := by
  intro s h hne hmiss ha dr dg db hd hl
  have hop : missOpcode (nextPixel s) s.prev = .luma dg (dr - dg) (db - dg) :=
    (missOpcode_of_alpha_eq ha).trans ((if_neg (mt of_decide_eq_true hd)).trans (if_pos (decide_eq_true hl)))
  rw [step_of_miss h hne hmiss, hop, encode_luma hl, pixelResolved_runBytes]
  rfl

/-- Settles O34: where neither fits, RGB carries the three channels as they are. -/
theorem fallbackEmitsRgb : Obligations.FallbackEmitsRgb := by
  intro s h hne hmiss ha dr dg db hd hl
  have hop : missOpcode (nextPixel s) s.prev = .rgb (nextPixel s).r (nextPixel s).g (nextPixel s).b :=
    (missOpcode_of_alpha_eq ha).trans
      ((if_neg (mt of_decide_eq_true hd)).trans (if_neg (mt of_decide_eq_true hl)))
  rw [step_of_miss h hne hmiss, hop, pixelResolved_runBytes]
  rfl

/-- Settles O24: every emission is an append of the encoding; RUN's also clears the counter and END's ends the
call. -/
theorem emissionAppendsTheEncoding : Obligations.EmissionAppendsTheEncoding := by
  intro i s hm
  rw [exec_of_enc hm]
  cases i with
  | run | endMarker => rfl
  | rgb | rgba | index | diff | luma | hdr => rfl

end Sys2Proof.Machine

/-! Proofs of the statements of 43_decoder.md: what a decoded opcode does, said once for all six; the fields of a
tag; and what follows for a step, for a whole decode call and for the opcode an encoder selected. -/

namespace Sys2Proof

/-! ## The fields of a tag -/

section
variable {t : Byte} {rest : List Byte}

/-- The trailer begins with a zero byte, so no other byte at a boundary is taken for it. -/
theorem decodeBoundary_of_tag_ne_zero (hlen : 8 ≤ (t :: rest).length) (ht : t ≠ 0) :
    decodeBoundary (t :: rest) = decodeTag t rest :=
  decodeBoundary_of_tag hlen fun htrailer => ht (List.cons.inj htrailer).1

theorem toNat_and_low_six (t : Byte) : (t &&& 0x3f).toNat = t.toNat % 64 := by
  rw [BitVec.toNat_and]
  exact Nat.and_two_pow_sub_one_eq_mod _ 6

theorem decodeTag_of_diff_bits (h : t.extractLsb' 6 2 = 0b01) :
    decodeTag t rest = .ok (.diff ((t.extractLsb' 4 2).toNat - 2) ((t.extractLsb' 2 2).toNat - 2)
      ((t.extractLsb' 0 2).toNat - 2), rest) := by
  have hquarter : t.toNat / 64 = 1 := tagBits_eq_iff.mp h
  obtain ⟨hfe, hff⟩ := ne_fullTag_of_lt (t := t) (by omega)
  unfold decodeTag
  rw [if_neg hfe, if_neg hff, h, if_neg (by decide), if_neg (by decide), if_pos rfl]
  rfl

theorem decodeTag_of_luma_bits (h : t.extractLsb' 6 2 = 0b10) (u : Byte) :
    decodeTag t (u :: rest) = .ok (.luma ((t.extractLsb' 0 6).toNat - 32) ((u.extractLsb' 4 4).toNat - 8)
      ((u.extractLsb' 0 4).toNat - 8), rest) := by
  have hquarter : t.toNat / 64 = 2 := tagBits_eq_iff.mp h
  obtain ⟨hfe, hff⟩ := ne_fullTag_of_lt (t := t) (by omega)
  unfold decodeTag
  rw [if_neg hfe, if_neg hff, h, if_neg (by decide), if_neg (by decide), if_neg (by decide)]
  rfl

end

/-- An instruction takes at least a byte (R99). -/
theorem Instr.length_pos (i : Instr) : 0 < i.length := by cases i <;> exact Nat.succ_pos _

end Sys2Proof

namespace Sys2Proof.Machine

/-! ## Modular addition (43_decoder.md R209) -/

theorem toNat_add8 (c : Byte) (d : Int) : ((add8 c d).toNat : Int) = ((c.toNat : Int) + d) % 256 := by
  rw [add8, BitVec.toNat_ofInt]
  omega

theorem s8_range (x : Int) : -128 ≤ s8 x ∧ s8 x ≤ 127 := by
  rw [s8]
  split <;> omega

theorem s8_emod (x : Int) : s8 x % 256 = x % 256 := by
  rw [s8]
  split <;> omega

/-- Adding the difference the encoder took gives its pixel's channel back. -/
theorem add8_channelDiff (new old : Byte) : add8 old (channelDiff new old) = new := by
  apply BitVec.eq_of_toNat_eq
  have hadd := toNat_add8 old (channelDiff new old)
  have hdiff : channelDiff new old % 256 = ((new.toNat : Int) - old.toNat) % 256 := s8_emod _
  omega

/-! ## A decoded opcode -/

/-- The pixel a decoded opcode stands for, which PREV becomes (43_decoder.md R203 to R211). -/
def decodedPixel (i : Instr) (s : State) : Pixel :=
  match i with
  | .rgb r g b => ⟨r, g, b, s.prev.a⟩
  | .rgba r g b a => ⟨r, g, b, a⟩
  | .index k => lookup k s
  | .diff dr dg db => ⟨add8 s.prev.r dr, add8 s.prev.g dg, add8 s.prev.b db, s.prev.a⟩
  | .luma dg drg dbg => ⟨add8 s.prev.r (dg + drg), add8 s.prev.g dg, add8 s.prev.b (dg + dbg), s.prev.a⟩
  | .run .. | .hdr .. | .endMarker => s.prev

/-- How often a decoded opcode writes its pixel. -/
def pixelCount : Instr → Nat
  | .run n => n
  | .rgb .. | .rgba .. | .index .. | .diff .. | .luma .. | .hdr .. | .endMarker => 1

/-- The state behind a decoded opcode that appends these bytes. -/
def opcodeDecoded (i : Instr) (bytes : List Byte) (s : State) : State :=
  { s with
    px := decodedPixel i s
    prev := decodedPixel i s
    rp := s.rp + i.length
    cache := if insertsPixel i then s.cache.set (hashSlot (decodedPixel i s)) (decodedPixel i s) else s.cache
    snk := s.snk ++ bytes
    snkLen := s.snkLen + bytes.length }

section
variable {i : Instr} {s t : State}

/-- The two shapes of a decoded opcode (43_decoder.md R204): a new pixel or a repeated one. -/
theorem exec_dec_opcode (hi : isOpcode i) (hm : s.mode = .dec) :
    exec i s = if insertsPixel i then newPixel i.length (decodedPixel i s) s
      else oldPixel (pixelCount i) (decodedPixel i s) s := by
  cases i with
  | rgb r g b => exact exec_dec_rgb hm r g b
  | rgba r g b a => exact exec_dec_rgba hm r g b a
  | index k => exact exec_dec_index hm k
  | diff dr dg db => exact exec_dec_diff hm dr dg db
  | luma dg drg dbg => exact exec_dec_luma hm dg drg dbg
  | run n => exact exec_dec_run hm n
  | hdr | endMarker => exact absurd hi (by simp [Instr.position])

theorem pixelCount_of_inserts (h : insertsPixel i = true) : pixelCount i = 1 := by
  cases i with
  | run => cases h
  | rgb | rgba | index | diff | luma | hdr | endMarker => rfl

theorem length_of_not_inserts (hi : isOpcode i) (h : insertsPixel i = false) : i.length = 1 := by
  cases i with
  | index | run => rfl
  | rgb | rgba | diff | luma => cases h
  | hdr | endMarker => exact absurd hi (by simp [Instr.position])

/-- Only RUN could write no pixel, and a well-formed one does not. -/
theorem pixelCount_ne_zero (hw : i.WellFormed) : pixelCount i ≠ 0 := by
  cases i with
  | run n =>
    have hn : 1 ≤ n ∧ n ≤ 62 := of_decide_eq_true hw
    exact Nat.one_le_iff_ne_zero.mp hn.1
  | rgb | rgba | index | diff | luma | hdr | endMarker => exact Nat.one_ne_zero

/-- Where its pixel has a chunk, a decoded opcode appends the chunk as often as it writes the pixel. -/
theorem exec_dec_opcode_of_chunk {chunk : List Byte} (hi : isOpcode i) (hm : s.mode = .dec)
    (hc : pixelChunk s (decodedPixel i s) = some chunk) :
    exec i s = .next (opcodeDecoded i (List.replicate (pixelCount i) chunk).flatten s) := by
  rw [exec_dec_opcode hi hm, opcodeDecoded]
  cases hins : insertsPixel i with
  | true =>
    rw [pixelCount_of_inserts hins, List.replicate_one, List.flatten_singleton]
    exact newPixel_of_chunk hc
  | false =>
    rw [length_of_not_inserts hi hins]
    exact oldPixel_of_chunk hc

/-- Where its pixel has no chunk, a decoded opcode is refused. -/
theorem exec_dec_opcode_of_no_chunk (hi : isOpcode i) (hw : i.WellFormed) (hm : s.mode = .dec)
    (hc : pixelChunk s (decodedPixel i s) = none) : exec i s = .refused .decBadChannels := by
  rw [exec_dec_opcode hi hm]
  split
  · exact newPixel_of_no_chunk hc
  · exact oldPixel_of_no_chunk (pixelCount_ne_zero hw) hc

/-- What a decoded opcode can do, where it answers a next state. -/
theorem exec_dec_opcode_eq_next (hi : isOpcode i) (hw : i.WellFormed) (hm : s.mode = .dec) :
    exec i s = .next t ↔ ∃ chunk, pixelChunk s (decodedPixel i s) = some chunk ∧
      t = opcodeDecoded i (List.replicate (pixelCount i) chunk).flatten s := by
  cases hc : pixelChunk s (decodedPixel i s) with
  | none => simp [exec_dec_opcode_of_no_chunk hi hw hm hc]
  | some chunk => simp [exec_dec_opcode_of_chunk hi hm hc, eq_comm]

/-! ## With three or four channels -/

theorem pixelChunk_of_channels (h : channelsDefined s) (p : Pixel) :
    pixelChunk s p = some (chunkBytes s.channels p) := by
  rcases h with h | h <;> simp [pixelChunk, chunkBytes, h]

theorem length_chunkBytes (h : channelsDefined s) (p : Pixel) :
    (chunkBytes s.channels p).length = s.channels.toNat := by
  rcases h with h | h <;> simp [chunkBytes, h]

/-- An opcode that writes its pixel once appends a byte for each channel. -/
theorem exec_dec_opcode_of_channels (hi : isOpcode i) (hm : s.mode = .dec) (hc : channelsDefined s)
    (h1 : pixelCount i = 1) :
    exec i s = .next { opcodeDecoded i (chunkBytes s.channels (decodedPixel i s)) s with
      snkLen := s.snkLen + s.channels.toNat } := by
  rw [exec_dec_opcode_of_chunk hi hm (pixelChunk_of_channels hc _), h1, List.replicate_one, List.flatten_singleton,
    ← length_chunkBytes hc (decodedPixel i s)]
  rfl

/-! ## With a CHANNELS byte other than 3 and 4 (43_decoder.md R214) -/

theorem pixelChunk_of_refuse (hc : ¬channelsDefined s) (hd : s.decBadChannels = .refuse) (p : Pixel) :
    pixelChunk s p = none := by
  obtain ⟨h3, h4⟩ := not_or.mp hc
  rw [pixelChunk, if_neg h3, if_neg h4, hd]

theorem finishDecode_of_refuse (hc : ¬channelsDefined s) (hd : s.decBadChannels = .refuse) :
    finishDecode s = .refused .decBadChannels := by
  rw [finishDecode, if_neg hc, hd]

/-- Where END answers a next state, DEC_BAD_CHANNELS does not stop the call. -/
theorem meaning_of_finishDecode (h : finishDecode s = .next t) : channelsDefined s ∨ s.decBadChannels = .as4 := by
  by_cases hc : channelsDefined s
  · exact .inl hc
  · rw [finishDecode, if_neg hc] at h
    split at h
    · cases h
    · next has4 => exact .inr has4
    · cases h

/-- What stands at a boundary is an opcode or the trailer (R107). -/
theorem isOpcode_or_endMarker (hi : i.position = .boundary) : isOpcode i ∨ i = .endMarker := by
  by_cases hend : i = .endMarker
  · exact .inr hend
  · exact .inl ⟨hi, hend⟩

end

/-! ## WIDTH, HEIGHT and COLORSPACE (43_decoder.md R213) -/

/-- The state with other values in the registers the decoder does not look at. -/
def withSize (w h : Word32) (cs : Byte) (s : State) : State :=
  { s with width := w, height := h, colorspace := cs }

section
variable {i : Instr} {s t : State} (w h : Word32) (cs : Byte)

theorem finishDecode_withSize (ht : finishDecode s = .next t) :
    finishDecode (withSize w h cs s) = .next (withSize w h cs t) := by
  obtain rfl := finishDecode_eq_next ht
  have hmeaning := meaning_of_finishDecode ht
  exact finishDecode_of_meaning (s := withSize w h cs s) hmeaning

/-- What stands at a boundary does the same whatever the three registers hold. -/
theorem exec_dec_withSize (hi : i.position = .boundary) (hw : i.WellFormed) (hm : s.mode = .dec)
    (ht : exec i s = .next t) : exec i (withSize w h cs s) = .next (withSize w h cs t) := by
  rcases isOpcode_or_endMarker hi with hop | rfl
  · obtain ⟨chunk, hc, rfl⟩ := (exec_dec_opcode_eq_next hop hw hm).mp ht
    exact exec_dec_opcode_of_chunk (s := withSize w h cs s) hop hm hc
  · rw [exec_dec_endMarker hm] at ht
    rw [exec_dec_endMarker (by exact hm)]
    exact finishDecode_withSize w h cs ht

end

/-! ## A decode call from its start to its end -/

/-- A decode call of three or four channels behind its header, with no further move of the host to come. -/
structure DecodeBody (s : State) : Prop where
  decoding : decoding s
  behindHeader : s.rp ≠ 0
  channels : channelsDefined s
  host : s.host = []

/-- A call that has ended, with no further move of the host to come. -/
structure CallEnded (s : State) : Prop where
  ended : s.status = .done ∨ s.status = .failed
  host : s.host = []

section
variable {i : Instr} {s t : State} {n : Nat}

/-- A call that has ended stays as it is. -/
theorem CallEnded.run_eq (h : CallEnded s) : core.run n s = .next s := by
  have hs : s.status ≠ .running := by rcases h.ended with h | h <;> simp [h]
  induction n with
  | zero => rfl
  | succ n ih => exact run_succ_eq_next.mpr ⟨s, step_of_host_nil hs h.host, ih⟩

/-- A rejection fails the call at once (60_exceptions.md R280). -/
theorem step_of_decode_error {e : Reject} (hs : decoding s) (hdec : decode (position s) (window s) = .error e) :
    step s = .next (raise (Reject.failure e) s) :=
  (step_of_dec hs.1 hs.2).trans (decodeMove_of_error hdec)

theorem step_of_decode_ok {rest : List Byte} (hs : decoding s)
    (hdec : decode (position s) (window s) = .ok (i, rest)) : step s = exec i s :=
  (step_of_dec hs.1 hs.2).trans (decodeMove_of_ok hdec)

/-- A step of the body ends the call or is an opcode, which consumes bytes of SRC. -/
theorem DecodeBody.step_ends_or_advances (h : DecodeBody s) :
    ∃ t, step s = .next t ∧
      (CallEnded t ∨ (DecodeBody t ∧ t.srcLen = s.srcLen ∧ s.rp < s.srcLen ∧ s.rp < t.rp)) := by
  cases hdec : decode (position s) (window s) with
  | error e => exact ⟨_, step_of_decode_error h.decoding hdec, .inl ⟨.inr rfl, h.host⟩⟩
  | ok r =>
    obtain ⟨i, rest⟩ := r
    obtain ⟨-, hpos, hlen, -⟩ := decode_eq_ok hdec
    rw [position, if_neg h.behindHeader] at hpos
    rw [step_of_decode_ok h.decoding hdec]
    rcases isOpcode_or_endMarker hpos with hop | rfl
    · refine ⟨_, exec_dec_opcode_of_chunk hop h.decoding.2 (pixelChunk_of_channels h.channels _), .inr ?_⟩
      have hi := i.length_pos
      have hrp : s.rp < s.rp + i.length := by omega
      rw [length_window] at hlen
      exact ⟨⟨h.decoding, by exact Nat.ne_zero_of_lt hrp, h.channels, h.host⟩, rfl, by omega, hrp⟩
    · rw [exec_dec_endMarker h.decoding.2, finishDecode_of_meaning (.inl h.channels)]
      exact ⟨_, rfl, .inl ⟨.inl rfl, h.host⟩⟩

/-- The body ends within one step more than the bytes that remain of SRC. -/
theorem DecodeBody.run_ends (h : DecodeBody s) (hn : s.srcLen - s.rp < n) :
    ∃ t, core.run n s = .next t ∧ CallEnded t := by
  induction n generalizing s with
  | zero => omega
  | succ n ih =>
    obtain ⟨u, hu, hend | ⟨hbody, hlen, hlt, hrp⟩⟩ := h.step_ends_or_advances
    · exact ⟨u, run_succ_eq_next.mpr ⟨u, hu, hend.run_eq⟩, hend⟩
    · obtain ⟨t, ht, hend⟩ := ih hbody (by omega)
      exact ⟨t, run_succ_eq_next.mpr ⟨u, hu, ht⟩, hend⟩

/-- What the decoder looks at first: the stream, 22 bytes at most. -/
theorem window_decodeCall (stream : List Byte) (s : State) : window (decodeCall stream s) = stream.take 22 := by
  have hslice := Memory.slice_ofList stream 0 (min 22 stream.length) (by omega)
  rw [List.drop_zero, ← List.take_take, List.take_length] at hslice
  exact hslice

/-- The CHANNELS byte of a header is byte 12 of the stream (40_header_trailer.md R120). -/
theorem channels_of_decode_first {stream rest : List Byte} {w h : Word32} {c cs : Byte}
    (hdec : decode .first (stream.take 22) = .ok (.hdr w h c cs, rest)) : stream[12]? = some c := by
  have hbytes := decode_eq_ok_bytes hdec
  have hbyte : (stream.take 22)[12]? = stream[12]? := List.getElem?_take_of_lt (by omega)
  rw [← hbyte, hbytes, encode_hdr]
  rfl

/-- The first step of a decode call fails it or takes it behind its header. -/
theorem step_decodeCall {stream : List Byte}
    (hc : 22 ≤ stream.length → stream[12]? = some 3 ∨ stream[12]? = some 4) (s : State) :
    ∃ t, step (decodeCall stream s) = .next t ∧
      (CallEnded t ∨ (DecodeBody t ∧ t.srcLen = stream.length ∧ t.rp = 14)) := by
  have hs : decoding (decodeCall stream s) := ⟨rfl, rfl⟩
  cases hdec : decode (position (decodeCall stream s)) (window (decodeCall stream s)) with
  | error e => exact ⟨_, step_of_decode_error hs hdec, .inl ⟨.inr rfl, rfl⟩⟩
  | ok r =>
    obtain ⟨i, rest⟩ := r
    rw [step_of_decode_ok hs hdec]
    obtain ⟨-, hpos, -, hlen⟩ := decode_eq_ok hdec
    obtain ⟨w, h, c, cs, rfl⟩ := eq_hdr_of_position_first hpos
    have h22 := hlen rfl
    rw [window_decodeCall] at hdec h22
    have hbyte := channels_of_decode_first hdec
    rw [List.length_take] at h22
    have hdef : c = 3 ∨ c = 4 := by simpa [hbyte] using hc (by omega)
    exact ⟨_, exec_dec_hdr hs.2 w h c cs, .inr ⟨⟨hs, Nat.succ_ne_zero 13, hdef, rfl⟩, rfl, rfl⟩⟩

end

/-! ## The decoder undoes the selector (43_decoder.md R216) -/

/-- The opcode the encoder selects for a differing pixel (42_encoder.md R166, R168 to R172). -/
def selectedOpcode (s : State) : Instr :=
  if s.cache[hashSlot (nextPixel s)] = nextPixel s then .index (hashSlot (nextPixel s))
  else missOpcode (nextPixel s) s.prev

section
variable {s t d : State} {px prev : Pixel}

/-- The opcode of a miss has its operands in range, as its tests found them. -/
theorem missOpcode_wellFormed (px prev : Pixel) : (missOpcode px prev).WellFormed := by
  rcases missOpcode_cases px prev with ⟨e, -⟩ | ⟨e, -, hd⟩ | ⟨e, -, -, hl⟩ | ⟨e, -⟩ <;> rw [e]
  · rfl
  · exact hd
  · exact hl
  · rfl

theorem missOpcode_inserts (px prev : Pixel) :
    isOpcode (missOpcode px prev) ∧ insertsPixel (missOpcode px prev) = true := by
  rcases missOpcode_cases px prev with ⟨e, -⟩ | ⟨e, -⟩ | ⟨e, -⟩ | ⟨e, -⟩
  all_goals
    rw [e]
    exact ⟨⟨rfl, nofun⟩, rfl⟩

/-- Decoded against the same PREV, the opcode of a miss stands for the pixel it was selected for: raw channels
are the pixel's own, and the differences give them back. -/
theorem decodedPixel_missOpcode (hprev : d.prev = prev) : decodedPixel (missOpcode px prev) d = px := by
  have hr : add8 prev.r (diffs px prev).dr = px.r := add8_channelDiff px.r prev.r
  have hg : add8 prev.g (diffs px prev).dg = px.g := add8_channelDiff px.g prev.g
  have hb : add8 prev.b (diffs px prev).db = px.b := add8_channelDiff px.b prev.b
  have halpha (ha : (diffs px prev).da = 0) : prev.a = px.a := (channelDiff_eq_zero_iff.mp ha).symm
  rcases missOpcode_cases px prev with ⟨e, -⟩ | ⟨e, ha, -⟩ | ⟨e, ha, -⟩ | ⟨e, ha, -⟩ <;> rw [e, decodedPixel]
  · rw [hprev, halpha ha, hr, hg, hb]
  · rw [hprev, halpha ha, add_sub_cancel, add_sub_cancel, hr, hg, hb]
  · rw [hprev, halpha ha]

theorem selectedOpcode_valid (s : State) :
    (selectedOpcode s).WellFormed ∧ isOpcode (selectedOpcode s) ∧ pixelCount (selectedOpcode s) = 1 := by
  rw [selectedOpcode]
  split
  · exact ⟨rfl, ⟨rfl, nofun⟩, rfl⟩
  · obtain ⟨hop, hins⟩ := missOpcode_inserts (nextPixel s) s.prev
    exact ⟨missOpcode_wellFormed _ _, hop, pixelCount_of_inserts hins⟩

/-- With no open run a differing pixel is emitted as its opcode alone, and inserted if that opcode inserts it when it
is decoded. -/
theorem step_of_differing (h : atPixel s) (hrun : s.run = 0) (hne : nextPixel s ≠ s.prev) :
    step s = .next (pixelResolved 0
      (if insertsPixel (selectedOpcode s) then s.cache.set (hashSlot (nextPixel s)) (nextPixel s) else s.cache)
      (encode (selectedOpcode s)) s) := by
  have hnorun : runBytes s = [] := if_pos hrun
  by_cases hit : s.cache[hashSlot (nextPixel s)] = nextPixel s
  · rw [step_of_hit h hne hit, hnorun, selectedOpcode, if_pos hit]
    rfl
  · rw [step_of_miss h hne hit, hnorun, selectedOpcode, if_neg hit, if_pos (missOpcode_inserts _ _).2]
    rfl

/-- Decoded against the encoder's PREV and CACHE, the selected opcode stands for the encoder's pixel. -/
theorem decodedPixel_selectedOpcode (hprev : d.prev = s.prev) (hcache : d.cache = s.cache) :
    decodedPixel (selectedOpcode s) d = nextPixel s := by
  rw [selectedOpcode]
  split
  · next hit => rw [decodedPixel, lookup, hcache, hit]
  · exact decodedPixel_missOpcode hprev

end

/-! ## The statements -/

/-- Settles O57: the emitted bytes read back as the selected opcode, whose decoded pixel and insert are the
encoder's. -/
theorem decoderInvertsTheSelector : Obligations.DecoderInvertsTheSelector := by
  intro e d e' more he hrun hne hstep hm hch hprev hcache hmore
  cases (step_of_differing he hrun hne).symm.trans hstep
  obtain ⟨hw, hop, hcount⟩ := selectedOpcode_valid e
  have hpixel := decodedPixel_selectedOpcode hprev hcache
  have hlen : 8 ≤ (encode (selectedOpcode e) ++ more).length := by rw [List.length_append]; omega
  have hdef : channelsDefined d := by
    obtain ⟨-, -, hc, -⟩ := he
    rwa [channelsDefined, hch]
  refine ⟨encode (selectedOpcode e), rfl, fun htrailer => ⟨selectedOpcode e, _,
    decodeBoundary_encode hw hop hlen htrailer, exec_dec_opcode_of_channels hop hm hdef hcount, ?_⟩⟩
  simp only [opcodeDecoded, pixelResolved, hpixel, hch, hcache, length_encode, and_self]

/-- Settles O19: the state behind an opcode is written out field by field, the cache slot by its insert, and alpha
by the pixel each opcode stands for. -/
theorem decodedOpcodeFrame : Obligations.DecodedOpcodeFrame := by
  intro i s t hi hw hm ht
  have hcache := cache_of_exec_dec hm hw ht
  obtain ⟨chunk, -, rfl⟩ := (exec_dec_opcode_eq_next hi hw hm).mp ht
  refine ⟨rfl, rfl, rfl, rfl, rfl, rfl, rfl, rfl, rfl, rfl, rfl, rfl, fun _ => rfl,
    fun a ha => List.getElem?_append_left ha, rfl, ?_, fun hold => ?_, fun k hk => ?_, fun hrgba hindex => ?_⟩
  · rintro n rfl
    rfl
  · rcases hold with ⟨n, rfl⟩ | ⟨k, rfl⟩ <;> rfl
  · rw [hcache]
    split
    · exact Vector.getElem_set_ne _ _ (fun e => hk (Fin.ext e.symm))
    · rfl
  · cases i with
    | rgba r g b a => exact absurd ⟨r, g, b, a, rfl⟩ hrgba
    | index k => exact absurd ⟨k, rfl⟩ hindex
    | rgb | diff | luma | run | hdr | endMarker => rfl

/-- Settles O38: a byte is the residue mod 256, and `s8` keeps that of a difference. -/
theorem addingTheDifferenceRestoresTheChannel : Obligations.AddingTheDifferenceRestoresTheChannel :=
  fun c c' => ⟨toNat_add8 c, s8_range _, add8_channelDiff c' c⟩

/-- Settles O50: the fetch looks at RP, SRC and SRC_LEN, a rejection only raises, and what stands at a boundary does
the same. -/
theorem decoderNeverLooksAtTheSize : Obligations.DecoderNeverLooksAtTheSize := by
  intro s t w h cs hs hrp ht
  cases hdec : decode (position s) (window s) with
  | error e =>
    cases (step_of_decode_error hs hdec).symm.trans ht
    exact step_of_decode_error (s := withSize w h cs s) hs hdec
  | ok r =>
    obtain ⟨i, rest⟩ := r
    obtain ⟨hw, hpos, -, -⟩ := decode_eq_ok hdec
    rw [position, if_neg hrp] at hpos
    rw [step_of_decode_ok hs hdec] at ht
    exact (step_of_decode_ok (s := withSize w h cs s) hs hdec).trans (exec_dec_withSize w h cs hpos hw hs.2 ht)

/-- Settles O54: the checks and the header are one step, and each step of the body after it consumes bytes or ends
the call. -/
theorem decodeCallEnds : Obligations.DecodeCallEnds := by
  intro stream s hc
  obtain ⟨u, hu, hend | ⟨hbody, hlen, hrp⟩⟩ := step_decodeCall hc s
  · exact ⟨u, run_succ_eq_next.mpr ⟨u, hu, hend.run_eq⟩, hend.ended⟩
  · obtain ⟨t, ht, hend⟩ := hbody.run_ends (n := stream.length - 14 + 1) (by omega)
    exact ⟨t, run_succ_eq_next.mpr ⟨u, hu, ht⟩, hend.ended⟩

/-- Settles O6: the statement writes the position and the window out. -/
theorem stepRunsDecodedInstruction : Obligations.StepRunsDecodedInstruction :=
  fun _ _ _ hs hdec => step_of_decode_ok hs hdec

/-- Settles O11: the tag is no zero byte, and the opcode writes its pixel once. -/
theorem decodedRgb : Obligations.DecodedRgb := by
  refine ⟨fun r g b rest hlen => ?_, fun r g b s hm hc => ⟨⟨r, g, b, s.prev.a⟩, ?_⟩⟩
  · rw [decode, decodeBoundary_of_tag_ne_zero (by simp only [List.length_cons]; omega) (by decide)]
    exact decodeTag_of_rgb_tag rfl r g b
  · exact exec_dec_opcode_of_channels ⟨rfl, nofun⟩ hm hc rfl

/-- Settles O12: the tag is no zero byte, and the opcode writes its pixel once. -/
theorem decodedRgba : Obligations.DecodedRgba := by
  refine ⟨fun r g b a rest hlen => ?_, fun r g b a s hm hc => ⟨⟨r, g, b, a⟩, ?_⟩⟩
  · rw [decode, decodeBoundary_of_tag_ne_zero (by simp only [List.length_cons]; omega) (by decide)]
    exact decodeTag_of_rgba_tag rfl r g b a
  · exact exec_dec_opcode_of_channels ⟨rfl, nofun⟩ hm hc rfl

/-- Settles O13: the top two bits are those of the INDEX range, and the slot's pixel is written once. -/
theorem decodedIndex : Obligations.DecodedIndex := by
  refine ⟨fun t rest hlen htrailer h => ⟨(t.extractLsb' 0 6).toFin, ?_, ?_⟩, fun k s hm hc => ⟨s.cache[k], ?_⟩⟩
  · rw [toNat_and_low_six]
    rfl
  · have hquarter : t.toNat / 64 = 0 := tagBits_eq_iff.mp h
    exact (decodeBoundary_of_tag hlen htrailer).trans (decodeTag_of_index_range (by omega))
  · exact exec_dec_opcode_of_channels ⟨rfl, nofun⟩ hm hc rfl

/-- Settles O14: the tag is no zero byte, its fields are unbiased by 2, and the opcode writes its pixel once. -/
theorem decodedDiff : Obligations.DecodedDiff := by
  refine ⟨fun t rest hlen h => ?_, fun dr dg db s hm hc => ⟨decodedPixel (.diff dr dg db) s, ?_⟩⟩
  · exact (decodeBoundary_of_tag_ne_zero hlen (by rintro rfl; contradiction)).trans (decodeTag_of_diff_bits h)
  · exact exec_dec_opcode_of_channels ⟨rfl, nofun⟩ hm hc rfl

/-- Settles O15: the tag is no zero byte, the fields are unbiased by 32 and 8, and the opcode writes its pixel
once. -/
theorem decodedLuma : Obligations.DecodedLuma := by
  refine ⟨fun t u rest hlen h => ?_, fun dg drg dbg s hm hc => ⟨decodedPixel (.luma dg drg dbg) s, ?_⟩⟩
  · exact (decodeBoundary_of_tag_ne_zero hlen (by rintro rfl; contradiction)).trans (decodeTag_of_luma_bits h u)
  · exact exec_dec_opcode_of_channels ⟨rfl, nofun⟩ hm hc rfl

/-- Settles O16: the tag is in the RUN range, and the copies are appended in one step. -/
theorem decodedRun : Obligations.DecodedRun := by
  refine ⟨fun t rest hlen hlo hhi => ?_, fun n s hm hc => ⟨s.prev, ?_⟩⟩
  · have hfield : (t &&& 0x3f).toNat = t.toNat - 0xc0 := by rw [toNat_and_low_six]; omega
    have hne : t ≠ 0 := by rintro rfl; contradiction
    rw [hfield]
    exact (decodeBoundary_of_tag_ne_zero hlen hne).trans (decodeTag_of_run_range ⟨hlo, by omega⟩)
  · have hlen : (List.replicate n (chunkBytes s.channels s.prev)).flatten.length = n * s.channels.toNat := by
      simp [length_chunkBytes hc]
    rw [← hlen]
    exact exec_dec_opcode_of_chunk (i := .run n) ⟨rfl, nofun⟩ hm (pixelChunk_of_channels hc _)

/-- Settles O21: under `refuse` a pixel has no chunk and the call no end. -/
theorem badChannelsAreRefusedByDefault : Obligations.BadChannelsAreRefusedByDefault := by
  intro i s hi hw hm hc hd
  rcases isOpcode_or_endMarker hi with hop | rfl
  · exact exec_dec_opcode_of_no_chunk hop hw hm (pixelChunk_of_refuse hc hd _)
  · rw [exec_dec_endMarker hm]
    exact finishDecode_of_refuse hc hd

end Sys2Proof.Machine

/-! Proofs of the statements of 44_byte_streamer.md: how a step of either call moves RP, the bound on what a decode
call appends, and what two calls on the same input have in common. -/

namespace Sys2Proof.Machine

/-! ## How RP moves (44_byte_streamer.md R247) -/

/-- The lengths of the six opcodes (30_encoding.md R99). -/
theorem length_of_isOpcode {i : Instr} (hi : isOpcode i) :
    i.length = 1 ∨ i.length = 2 ∨ i.length = 4 ∨ i.length = 5 := by
  cases i with
  | index | diff | run => exact .inl rfl
  | luma => exact .inr (.inl rfl)
  | rgb => exact .inr (.inr (.inl rfl))
  | rgba => exact .inr (.inr (.inr rfl))
  | hdr => cases hi.1
  | endMarker => exact absurd rfl hi.2

section
variable {s t : State}

/-- What a move of a decode call can do, where it answers a next state: fail, load the header, decode an opcode, or
end at a trailer that lies within SRC. -/
theorem decodeMove_eq_next (hm : s.mode = .dec) (ht : decodeMove s = .next t) :
    (∃ f, t = raise f s) ∨
    (s.rp = 0 ∧ ∃ w h c cs, t = loadHeader w h c cs s) ∨
    (s.rp ≠ 0 ∧ ∃ i chunk, isOpcode i ∧ i.WellFormed ∧ pixelChunk s (decodedPixel i s) = some chunk ∧
      t = opcodeDecoded i (List.replicate (pixelCount i) chunk).flatten s) ∨
    (s.rp ≠ 0 ∧ s.rp + 8 ≤ s.srcLen ∧ t = finish s) := by
  cases hdec : decode (position s) (window s) with
  | error e =>
    rw [decodeMove_of_error hdec] at ht
    cases ht
    exact .inl ⟨_, rfl⟩
  | ok r =>
    obtain ⟨i, rest⟩ := r
    rw [decodeMove_of_ok hdec] at ht
    obtain ⟨hw, hpos, hlen, -⟩ := decode_eq_ok hdec
    by_cases h0 : s.rp = 0
    · rw [position, if_pos h0] at hpos
      obtain ⟨w, h, c, cs, rfl⟩ := eq_hdr_of_position_first hpos
      rw [exec_dec_hdr hm] at ht
      cases ht
      exact .inr (.inl ⟨h0, w, h, c, cs, rfl⟩)
    · rw [position, if_neg h0] at hpos
      rcases isOpcode_or_endMarker hpos with hop | rfl
      · obtain ⟨chunk, hc, rfl⟩ := (exec_dec_opcode_eq_next hop hw hm).mp ht
        exact .inr (.inr (.inl ⟨h0, i, chunk, hop, hw, hc, rfl⟩))
      · rw [exec_dec_endMarker hm] at ht
        rw [length_window, Instr.length] at hlen
        exact .inr (.inr (.inr ⟨h0, by omega, finishDecode_eq_next ht⟩))

/-- An encode call moves RP by the pixel chunk it reads; the step that goes on without reading one is the header's. -/
theorem rp_of_encode_step (h : Inv s) (hs : encoding s) (ht : step s = .next t) :
    (t.rp = s.rp ∧ (t.status = .running → s.snkLen = 0 ∧ t.snkLen = 14)) ∨
      (s.rp < t.rp ∧ t.rp = s.rp + s.channels.toNat) := by
  have hmove := ht
  rw [step_of_enc hs.1 hs.2] at hmove
  rcases encodeMove_eq_next hs.2 hmove with
    ⟨-, f, -, rfl⟩ | ⟨h0, -, -, rfl⟩ | ⟨h0, -, hc, hle, -⟩ | ⟨-, -, rfl⟩
  · exact .inl ⟨rfl, nofun⟩
  · exact .inl ⟨rfl, fun _ => ⟨h0, by rw [emit_snkLen, h0, length_encode, Instr.length]⟩⟩
  · obtain ⟨run, cache, bytes, hstep, -⟩ := step_of_atPixel_bytes_le h ⟨hs, h0, hc, hle⟩
    cases hstep.symm.trans ht
    exact .inr ⟨Nat.lt_add_of_pos_right (channels_pos hc), rfl⟩
  · exact .inl ⟨rfl, nofun⟩

/-- A decode call moves RP to 14 at its header and past each opcode, and leaves it where the call ends. -/
theorem rp_of_decode_step (hs : decoding s) (ht : step s = .next t) :
    (t.rp = s.rp ∧ t.status ≠ .running) ∨ (s.rp = 0 ∧ t.rp = 14) ∨
      ∃ i, isOpcode i ∧ t.rp = s.rp + i.length := by
  rw [step_of_dec hs.1 hs.2] at ht
  rcases decodeMove_eq_next hs.2 ht with
    ⟨f, rfl⟩ | ⟨h0, w, h, c, cs, rfl⟩ | ⟨-, i, chunk, hop, -, -, rfl⟩ | ⟨-, -, rfl⟩
  · exact .inl ⟨rfl, nofun⟩
  · exact .inr (.inl ⟨h0, rfl⟩)
  · exact .inr (.inr ⟨i, hop, rfl⟩)
  · exact .inl ⟨rfl, nofun⟩

end

/-! ## The bound on a decode call (44_byte_streamer.md R248) -/

/-- An opcode writes its pixel 62 times at most, which a RUN of the full length does (30_encoding.md R108). -/
theorem pixelCount_le {i : Instr} (hw : i.WellFormed) : pixelCount i ≤ 62 := by
  cases i with
  | run n =>
    have hn : 1 ≤ n ∧ n ≤ 62 := of_decide_eq_true hw
    exact hn.2
  | rgb | rgba | index | diff | luma | hdr | endMarker => exact Nat.le_of_ble_eq_true rfl

/-- How a decode call of a stream of `len` bytes stands within the bound of R248: in the body each byte consumed
behind the header pays for 62 pixels; at the end the 8 bytes of the trailer are left unspent. -/
inductive DecodeWithin (len : Nat) (s : State) : Prop where
  | body (h : DecodeBody s) (hlen : s.srcLen = len) (hrp : 14 ≤ s.rp)
      (hsnk : s.snkLen ≤ 62 * s.channels.toNat * (s.rp - 14))
  | ended (h : CallEnded s) (hsnk : s.snkLen ≤ 62 * s.channels.toNat * (len - 22))

section
variable {s t : State} {len : Nat}

/-- Nothing is appended by the first step of a decode call. -/
theorem snkLen_of_first_decode_step (hs : decoding s) (h0 : s.rp = 0) (hsnk : s.snkLen = 0) (ht : step s = .next t) :
    t.snkLen = 0 := by
  rw [step_of_dec hs.1 hs.2] at ht
  rcases decodeMove_eq_next hs.2 ht with ⟨f, rfl⟩ | ⟨-, w, h, c, cs, rfl⟩ | ⟨hne, -⟩ | ⟨hne, -⟩
  · rfl
  · exact hsnk
  · exact absurd h0 hne
  · exact absurd h0 hne

/-- What an opcode appends, its length in bytes pays for. -/
theorem length_of_opcode_bytes_le {i : Instr} {chunk : List Byte} {p : Pixel} (hc : channelsDefined s)
    (hw : i.WellFormed) (hchunk : pixelChunk s p = some chunk) :
    (List.replicate (pixelCount i) chunk).flatten.length ≤ 62 * s.channels.toNat * i.length := by
  rw [pixelChunk_of_channels hc] at hchunk
  cases hchunk
  have hlen : (List.replicate (pixelCount i) (chunkBytes s.channels p)).flatten.length =
      pixelCount i * s.channels.toNat := by
    simp [length_chunkBytes hc]
  rw [hlen]
  exact (Nat.mul_le_mul_right _ (pixelCount_le hw)).trans (Nat.le_mul_of_pos_right _ i.length_pos)

theorem DecodeWithin.of_body_step (h : DecodeBody s) (hlen : s.srcLen = len) (hrp : 14 ≤ s.rp)
    (hsnk : s.snkLen ≤ 62 * s.channels.toNat * (s.rp - 14)) (ht : step s = .next t) : DecodeWithin len t := by
  rw [step_of_dec h.decoding.1 h.decoding.2] at ht
  rcases decodeMove_eq_next h.decoding.2 ht with
    ⟨f, rfl⟩ | ⟨h0, -⟩ | ⟨-, i, chunk, hop, hw, hchunk, rfl⟩ | ⟨-, htrailer, rfl⟩
  · exact .ended ⟨.inr rfl, h.host⟩ (Nat.zero_le _)
  · exact absurd h0 h.behindHeader
  · have hbytes := length_of_opcode_bytes_le h.channels hw hchunk
    refine .body ⟨h.decoding, ?_, h.channels, h.host⟩ hlen (by exact Nat.le_add_right_of_le hrp) ?_
    · exact Nat.ne_zero_of_lt (Nat.lt_add_of_pos_right i.length_pos)
    · calc s.snkLen + (List.replicate (pixelCount i) chunk).flatten.length
        _ ≤ 62 * s.channels.toNat * (s.rp - 14) + 62 * s.channels.toNat * i.length := Nat.add_le_add hsnk hbytes
        _ = 62 * s.channels.toNat * (s.rp + i.length - 14) := by rw [← Nat.mul_add, Nat.sub_add_comm hrp]
  · exact .ended ⟨.inl rfl, h.host⟩ (hsnk.trans (Nat.mul_le_mul_left _ (by omega)))

theorem DecodeWithin.of_step (h : DecodeWithin len s) (ht : step s = .next t) : DecodeWithin len t := by
  cases h with
  | body h hlen hrp hsnk => exact .of_body_step h hlen hrp hsnk ht
  | ended h hsnk =>
    have hstay : step s = .next s := step_of_host_nil (by rcases h.ended with e | e <;> simp [e]) h.host
    cases hstay.symm.trans ht
    exact .ended h hsnk

/-- Behind its first step a decode call of three or four channels is within the bound, having appended nothing. -/
theorem decodeWithin_of_first_step {stream : List Byte} (hc : stream[12]? = some 3 ∨ stream[12]? = some 4)
    (ht : step (decodeCall stream s) = .next t) : DecodeWithin stream.length t := by
  have hsnk : t.snkLen = 0 := snkLen_of_first_decode_step (by exact ⟨rfl, rfl⟩) (by rfl) (by rfl) ht
  obtain ⟨u, hu, h⟩ := step_decodeCall (fun _ => hc) s
  cases hu.symm.trans ht
  rcases h with hend | ⟨hbody, hlen, hrp⟩
  · exact .ended hend (by omega)
  · exact .body hbody hlen (by omega) (by omega)

end

/-! ## Two calls that look alike to the host (44_byte_streamer.md R243) -/

/-- Two steps that the host cannot tell apart: both go on, in states the relation `R` holds of; both end their call
with one result; or both stop for one reason. -/
inductive StepsAlike (R : State → State → Prop) : Result → Result → Prop where
  | goOn {t t' : State} (h : R t t') : StepsAlike R (.next t) (.next t')
  | ended {t t' : State} (h : CallEnded t) (h' : CallEnded t') (hview : hostView t = hostView t') :
      StepsAlike R (.next t) (.next t')
  | fault (r : Fault) : StepsAlike R (.fault r) (.fault r)
  | refused (r : Refusal) : StepsAlike R (.refused r) (.refused r)

/-- States of two running calls in which a relation holds that their steps keep, until both end alike, give the host
the same view after any number of steps. -/
theorem outcomeView_run_eq {R : State → State → Prop}
    (hrun : ∀ {s s'}, R s s' → s.status = .running ∧ s'.status = .running)
    (hstep : ∀ {s s'}, R s s' → StepsAlike R (step s) (step s')) {s s' : State} (h : R s s') (n : Nat) :
    outcomeView (core.run n s) = outcomeView (core.run n s') := by
  induction n generalizing s s' with
  | zero =>
    obtain ⟨hr, hr'⟩ := hrun h
    simp [Host.Core.run, outcomeView, hostView, hr, hr']
  | succ n ih =>
    have hsteps : StepsAlike R (core.step s) (core.step s') := hstep h
    simp only [Host.Core.run]
    generalize core.step s = o, core.step s' = o' at hsteps ⊢
    cases hsteps with
    | goOn h => exact ih h
    | ended h h' hview => simp only [h.run_eq, h'.run_eq, outcomeView, hview]
    | fault | refused => rfl

/-- The state with other values in PX, in the marks and in the parameter. -/
def withUnread (q : Pixel) (k : DescriptorMask) (d : Config.DecBadChannels) (s : State) : State :=
  { s with px := q, withheld := k, decBadChannels := d }

/-! ## Decode -/

/-- Two decode calls of one stream under one parameter: both just started, or both behind the header with only PX and
the marks to differ in. -/
inductive SameDecode : State → State → Prop where
  | begun (stream : List Byte) {s s' : State} (hd : s.decBadChannels = s'.decBadChannels) :
      SameDecode (decodeCall stream s) (decodeCall stream s')
  | body {s : State} (q : Pixel) (k : DescriptorMask) (hs : decoding s) (hrp : s.rp ≠ 0) (hh : s.host = []) :
      SameDecode s (withUnread q k s.decBadChannels s)

section
variable {s s' : State}

theorem SameDecode.running (h : SameDecode s s') : s.status = .running ∧ s'.status = .running := by
  cases h with
  | begun => exact ⟨rfl, rfl⟩
  | body q k hs => exact ⟨hs.1, hs.1⟩

/-- A failure of two calls shows the host its code alone (60_exceptions.md R280). -/
theorem stepsAlike_raise (R : State → State → Prop) (f : Failure) (hh : s.host = []) (hh' : s'.host = []) :
    StepsAlike R (.next (raise f s)) (.next (raise f s')) :=
  .ended ⟨.inr rfl, hh⟩ ⟨.inr rfl, hh'⟩ rfl

/-- The first step reads the stream alone: both calls fail by one name, or both load one header. -/
theorem stepsAlike_of_begun (stream : List Byte) (hd : s.decBadChannels = s'.decBadChannels) :
    StepsAlike SameDecode (step (decodeCall stream s)) (step (decodeCall stream s')) := by
  have hs (u : State) : decoding (decodeCall stream u) := ⟨rfl, rfl⟩
  have hfetch (u : State) : decode (position (decodeCall stream u)) (window (decodeCall stream u)) =
      decode .first (stream.take 22) := by
    rw [window_decodeCall]
    rfl
  cases hdec : decode .first (stream.take 22) with
  | error e =>
    rw [step_of_decode_error (hs s) ((hfetch s).trans hdec), step_of_decode_error (hs s') ((hfetch s').trans hdec)]
    exact stepsAlike_raise _ _ rfl rfl
  | ok r =>
    obtain ⟨i, rest⟩ := r
    obtain ⟨-, hpos, -, -⟩ := decode_eq_ok hdec
    obtain ⟨w, h, c, cs, rfl⟩ := eq_hdr_of_position_first hpos
    rw [step_of_decode_ok (hs s) ((hfetch s).trans hdec), step_of_decode_ok (hs s') ((hfetch s').trans hdec),
      exec_dec_hdr (hs s).2, exec_dec_hdr (hs s').2]
    have hsame : loadHeader w h c cs (decodeCall stream s') =
        withUnread s'.px .all s.decBadChannels (loadHeader w h c cs (decodeCall stream s)) := by
      rw [hd]
      rfl
    rw [hsame]
    exact .goOn (.body _ _ (hs s) (Nat.succ_ne_zero 13) rfl)

theorem finishDecode_of_fault (hc : ¬channelsDefined s) (hd : s.decBadChannels = .fault) :
    finishDecode s = .fault .decBadChannels := by
  rw [finishDecode, if_neg hc, hd]

/-- The end of a decode call looks at CHANNELS and the parameter alone. -/
theorem stepsAlike_finishDecode (R : State → State → Prop) (q : Pixel) (k : DescriptorMask) (hh : s.host = []) :
    StepsAlike R (finishDecode s) (finishDecode (withUnread q k s.decBadChannels s)) := by
  have hend : StepsAlike R (.next (finish s)) (.next (finish (withUnread q k s.decBadChannels s))) :=
    .ended ⟨.inl rfl, hh⟩ ⟨.inl rfl, hh⟩ rfl
  by_cases hc : channelsDefined s
  · rw [finishDecode_of_meaning (.inl hc), finishDecode_of_meaning (s := withUnread q k _ s) (.inl hc)]
    exact hend
  · cases hd : s.decBadChannels with
    | refuse =>
      rw [finishDecode_of_refuse hc hd, finishDecode_of_refuse (s := withUnread q k _ s) hc rfl]
      exact .refused _
    | as4 =>
      rw [finishDecode_of_meaning (.inr hd), finishDecode_of_meaning (s := withUnread q k _ s) (.inr rfl), ← hd]
      exact hend
    | fault =>
      rw [finishDecode_of_fault hc hd, finishDecode_of_fault (s := withUnread q k _ s) hc rfl]
      exact .fault _

/-- An opcode does the same whatever PX and the marks hold. -/
theorem stepsAlike_opcode {i : Instr} (q : Pixel) (k : DescriptorMask) (hs : decoding s) (hh : s.host = [])
    (hop : isOpcode i) (hw : i.WellFormed) :
    StepsAlike SameDecode (exec i s) (exec i (withUnread q k s.decBadChannels s)) := by
  cases hchunk : pixelChunk s (decodedPixel i s) with
  | none =>
    rw [exec_dec_opcode_of_no_chunk hop hw hs.2 hchunk,
      exec_dec_opcode_of_no_chunk (s := withUnread q k s.decBadChannels s) hop hw hs.2 hchunk]
    exact .refused _
  | some chunk =>
    rw [exec_dec_opcode_of_chunk hop hs.2 hchunk,
      exec_dec_opcode_of_chunk (s := withUnread q k s.decBadChannels s) hop hs.2 hchunk]
    have hadvanced : s.rp + i.length ≠ 0 := Nat.ne_zero_of_lt (Nat.lt_add_of_pos_right i.length_pos)
    exact .goOn (.body (decodedPixel i s) k hs hadvanced hh)

/-- The body reads neither PX nor the marks. -/
theorem stepsAlike_of_body (q : Pixel) (k : DescriptorMask) (hs : decoding s) (hrp : s.rp ≠ 0) (hh : s.host = []) :
    StepsAlike SameDecode (step s) (step (withUnread q k s.decBadChannels s)) := by
  have hs' : decoding (withUnread q k s.decBadChannels s) := hs
  cases hdec : decode (position s) (window s) with
  | error e =>
    rw [step_of_decode_error hs hdec, step_of_decode_error hs' hdec]
    exact stepsAlike_raise _ _ hh hh
  | ok r =>
    obtain ⟨i, rest⟩ := r
    obtain ⟨hw, hpos, -, -⟩ := decode_eq_ok hdec
    rw [position, if_neg hrp] at hpos
    rw [step_of_decode_ok hs hdec, step_of_decode_ok hs' hdec]
    rcases isOpcode_or_endMarker hpos with hop | rfl
    · exact stepsAlike_opcode q k hs hh hop hw
    · rw [exec_dec_endMarker hs.2, exec_dec_endMarker hs'.2]
      exact stepsAlike_finishDecode _ q k hh

theorem SameDecode.stepsAlike (h : SameDecode s s') : StepsAlike SameDecode (step s) (step s') := by
  cases h with
  | begun stream hd => exact stepsAlike_of_begun stream hd
  | body q k hs hrp hh => exact stepsAlike_of_body q k hs hrp hh

end

/-! ## Encode -/

/-- Two encode calls of one image: only PX, the marks and the parameter may differ. -/
inductive SameEncode : State → State → Prop where
  | intro {s : State} (q : Pixel) (k : DescriptorMask) (d : Config.DecBadChannels) (hinv : Inv s) (hs : encoding s)
      (hh : s.host = []) : SameEncode s (withUnread q k d s)

section
variable {s s' : State}

theorem SameEncode.running (h : SameEncode s s') : s.status = .running ∧ s'.status = .running := by
  cases h with
  | intro q k d _ hs => exact ⟨hs.1, hs.1⟩

/-- CHANNELS is checked first (60_exceptions.md R274). -/
theorem encodeMove_of_bad_channels (h0 : s.snkLen = 0) (hc : ¬channelsDefined s) :
    encodeMove s = .next (raise .invalidChannels s) := by
  rw [encodeMove, if_pos h0, beginEncode, if_pos hc]

theorem encodeMove_of_wrong_size (h0 : s.snkLen = 0) (hc : channelsDefined s)
    (hsize : s.srcLen ≠ s.width.toNat * s.height.toNat * s.channels.toNat) :
    encodeMove s = .next (raise .sizeMismatch s) := by
  rw [encodeMove, if_pos h0, beginEncode, if_neg (not_not.mpr hc), if_pos hsize]

/-- The checks of an encode call (60_exceptions.md R274, R275) and its header read the descriptor and SRC_LEN
alone. -/
theorem stepsAlike_of_header (q : Pixel) (k : DescriptorMask) (d : Config.DecBadChannels) (hinv : Inv s)
    (hs : encoding s) (hh : s.host = []) (h0 : s.snkLen = 0) :
    StepsAlike SameEncode (encodeMove s) (encodeMove (withUnread q k d s)) := by
  have h0' : (withUnread q k d s).snkLen = 0 := h0
  by_cases hc : channelsDefined s
  · by_cases hsize : s.srcLen = s.width.toNat * s.height.toNat * s.channels.toNat
    · rw [encodeMove_of_checked hs.2 h0 hc hsize, encodeMove_of_checked (s := withUnread q k d s) hs.2 h0 hc hsize]
      exact .goOn (.intro q k d (hinv.emit_header hs h0 hc hsize) hs hh)
    · rw [encodeMove_of_wrong_size h0 hc hsize, encodeMove_of_wrong_size h0' hc hsize]
      exact stepsAlike_raise _ _ hh hh
  · rw [encodeMove_of_bad_channels h0 hc, encodeMove_of_bad_channels h0' hc]
    exact stepsAlike_raise _ _ hh hh

/-- A step of the pass reads its pixel before it looks at PX, and it never looks at the marks or the parameter. -/
theorem step_of_atPixel_withUnread (q : Pixel) (k : DescriptorMask) (d : Config.DecBadChannels) (h : atPixel s) :
    ∃ run cache bytes, step s = .next (pixelResolved run cache bytes s) ∧
      step (withUnread q k d s) = .next (pixelResolved run cache bytes (withUnread q k d s)) := by
  have h' : atPixel (withUnread q k d s) := h
  by_cases heq : nextPixel s = s.prev
  · by_cases hflush : s.run + 1 = 62 ∨ behindPixel s = s.srcLen
    · exact ⟨_, _, _, step_of_run_flushed h heq hflush, step_of_run_flushed h' heq hflush⟩
    · obtain ⟨hmax, hend⟩ := not_or.mp hflush
      exact ⟨_, _, _, step_of_run_continued h heq hmax hend, step_of_run_continued h' heq hmax hend⟩
  · by_cases hit : s.cache[hashSlot (nextPixel s)] = nextPixel s
    · exact ⟨_, _, _, step_of_hit h heq hit, step_of_hit h' heq hit⟩
    · exact ⟨_, _, _, step_of_miss h heq hit, step_of_miss h' heq hit⟩

theorem SameEncode.stepsAlike (h : SameEncode s s') : StepsAlike SameEncode (step s) (step s') := by
  obtain ⟨q, k, d, hinv, hs, hh⟩ := h
  have hs' : encoding (withUnread q k d s) := hs
  by_cases h0 : s.snkLen = 0
  · rw [step_of_enc hs.1 hs.2, step_of_enc hs'.1 hs'.2]
    exact stepsAlike_of_header q k d hinv hs hh h0
  · by_cases hlt : s.rp < s.srcLen
    · obtain ⟨-, -, -, hpos, -⟩ := (inv_iff_of_encoding_body hs h0).mp hinv
      obtain ⟨run, cache, bytes, hstep, hstep'⟩ :=
        step_of_atPixel_withUnread q k d ⟨hs, h0, hpos.channels, hpos.chunk_within hlt⟩
      have hnext : Inv (pixelResolved run cache bytes s) := stepKeepsTheInvariant _ _ hinv hstep
      rw [hstep, hstep']
      exact .goOn (.intro (nextPixel s) k d hnext hs hh)
    · have hge : s.srcLen ≤ s.rp := Nat.not_lt.mp hlt
      rw [step_of_enc hs.1 hs.2, step_of_enc hs'.1 hs'.2, encodeMove_of_exhausted hs.2 h0 hge,
        encodeMove_of_exhausted hs'.2 h0 hge]
      exact .ended ⟨.inl rfl, hh⟩ ⟨.inl rfl, hh⟩ rfl

end

/-! ## The statements -/

/-- Settles O48: an encode call moves RP by its pixel chunk, a decode call to 14 or by an opcode's length; every other
step ends the call, but the header's of an encode call. -/
theorem readPositionOnlyAdvances : Obligations.ReadPositionOnlyAdvances := by
  intro s t h hr ht
  cases hm : s.mode with
  | enc =>
    rcases rp_of_encode_step h ⟨hr, hm⟩ ht with ⟨hrp, hhdr⟩ | ⟨hlt, hrp⟩
    · exact ⟨fun _ => .inl hrp, nofun, fun hrun => .inr ⟨rfl, hhdr hrun⟩⟩
    · exact ⟨fun _ => .inr hrp, nofun, fun _ => .inl hlt⟩
  | dec =>
    refine ⟨nofun, ?_⟩
    rcases rp_of_decode_step ⟨hr, hm⟩ ht with ⟨hrp, hend⟩ | ⟨h0, hrp⟩ | ⟨i, hop, hrp⟩
    · exact ⟨fun _ => .inl hrp, fun hrun => absurd hrun hend⟩
    · exact ⟨fun _ => by omega, fun _ => .inl (by omega)⟩
    · have hlen := length_of_isOpcode hop
      exact ⟨fun _ => by omega, fun _ => .inl (by omega)⟩

/-- Settles O52: the first step appends nothing, every later one keeps the call within the bound, and a call that is
done has passed the 14 bytes of its header and has its trailer left. -/
theorem decodeOutputIsBounded : Obligations.DecodeOutputIsBounded := by
  intro stream s t n hc ht hdone
  cases n with
  | zero =>
    cases ht
    cases hdone
  | succ n =>
    obtain ⟨u, hu, hrest⟩ := run_succ_eq_next.mp ht
    have hw : DecodeWithin stream.length t :=
      run_keeps (M := core) (fun _ _ => DecodeWithin.of_step) (decodeWithin_of_first_step hc hu) hrest
    cases hw with
    | body h => exact absurd (h.decoding.1.symm.trans hdone) nofun
    | ended _ hsnk => exact hsnk

/-- Settles O55: a decode call starts from the stream and the parameter, and what else it is started with is read by
no step of it. -/
theorem decodeDependsOnTheStreamAlone : Obligations.DecodeDependsOnTheStreamAlone :=
  fun stream _ _ n hd => outcomeView_run_eq SameDecode.running SameDecode.stepsAlike (.begun stream hd) n

/-- Settles O56: two encode calls of one image start with PX, the marks and the parameter to differ in, which no step
of them reads. -/
theorem encodeDependsOnTheImageAlone : Obligations.EncodeDependsOnTheImageAlone := by
  intro w h c cs pixels s s' n
  have hsame : SameEncode (encodeCall w h c cs pixels s) (encodeCall w h c cs pixels s') :=
    .intro s'.px (encodeCall w h c cs pixels s').withheld s'.decBadChannels (inv_encodeCall w h c cs pixels s)
      ⟨rfl, rfl⟩ rfl
  exact outcomeView_run_eq SameEncode.running SameEncode.stepsAlike hsame n

end Sys2Proof.Machine

/-! Proofs of the statements of 60_exceptions.md: when a decode call fails and with which code, and the two checks
of an encode call. -/

namespace Sys2Proof.Machine

/-! ## The failure of a decode call (60_exceptions.md R280) -/

/-- The host sees of a failure its code. -/
theorem hostView_raise (f : Failure) (s : State) : hostView (raise f s) = .failed (errCode (some f)) := rfl

section
variable {s t : State} {code : BitVec 3}

/-- No decoded instruction fails its call: the decoder's rejections alone do (60_exceptions.md R270). -/
theorem status_of_exec_dec_ne_failed {i : Instr} (hs : decoding s) (hw : i.WellFormed) (ht : exec i s = .next t) :
    t.status ≠ .failed := by
  have hrun : s.status ≠ .failed := by simp [hs.1]
  rcases exec_dec_eq_next hs.2 hw ht with
    ⟨p, bytes, -, -, -, rfl⟩ | ⟨n, p, bytes, -, -, -, -, rfl⟩ | ⟨w, h, c, cs, -, rfl⟩ | ⟨-, rfl⟩
  · exact hrun
  · exact hrun
  · exact hrun
  · exact nofun

theorem status_of_hostView_failed (h : hostView t = .failed code) : t.status = .failed := by
  cases hstatus : t.status with
  | failed => rfl
  | idle | running | done => simp [hostView, hstatus] at h

/-- A step of a decode call fails with a code exactly when the decoder rejects what stands at RP by the failure of
that code. -/
theorem decode_step_fails_iff (hs : decoding s) (ht : step s = .next t) :
    hostView t = .failed code ↔
      ∃ e, decode (position s) (window s) = .error e ∧ errCode (some (Reject.failure e)) = code := by
  cases hdec : decode (position s) (window s) with
  | error e =>
    rw [step_of_decode_error hs hdec] at ht
    cases ht
    simp [hostView_raise]
  | ok r =>
    obtain ⟨hw, -, -, -⟩ := decode_eq_ok hdec
    rw [step_of_decode_ok hs hdec] at ht
    have hgoes := status_of_exec_dec_ne_failed hs hw ht
    exact ⟨fun hview => absurd (status_of_hostView_failed hview) hgoes, by simp⟩

/-- What the decoder rejects at a boundary is fewer than 8 bytes of SRC left (60_exceptions.md R273). -/
theorem decode_at_boundary_eq_error {e : Reject} (hrp : s.rp ≠ 0) :
    decode (position s) (window s) = .error e ↔ e = .missingEndMarker ∧ s.srcLen - s.rp < 8 := by
  rw [position, if_neg hrp]
  refine decodeBoundary_eq_error.trans (and_congr_right' ?_)
  rw [length_window]
  omega

end

/-! ## The first step of a decode call (60_exceptions.md R271, R272) -/

section
variable {stream : List Byte}

/-- The header's checks see the whole stream through the 22 bytes of the window. -/
theorem decode_first_eq_error {e : Reject} (s : State) :
    decode (position (decodeCall stream s)) (window (decodeCall stream s)) = .error e ↔
      (e = .tooShort ∧ stream.length < 22) ∨
      (e = .badMagic ∧ 22 ≤ stream.length ∧ stream.take 4 ≠ Config.magic) := by
  have hshort : (stream.take 22).length < 22 ↔ stream.length < 22 := by rw [List.length_take]; omega
  have hlong : 22 ≤ (stream.take 22).length ↔ 22 ≤ stream.length := by rw [List.length_take]; omega
  have hmagic : (stream.take 22).take 4 = stream.take 4 := List.take_take
  rw [window_decodeCall, ← hshort, ← hlong, ← hmagic]
  exact decodeHeader_eq_error

/-- The first step of a decode call answers whatever the stream is, and what it fails with is said by the header's
two checks. -/
theorem first_decode_step_fails_iff (stream : List Byte) (s : State) :
    ∃ t, step (decodeCall stream s) = .next t ∧ ∀ code, hostView t = .failed code ↔
      (code = 1 ∧ stream.length < 22) ∨
      (code = 2 ∧ 22 ≤ stream.length ∧ stream.take 4 ≠ Config.magic) := by
  have hs : decoding (decodeCall stream s) := ⟨rfl, rfl⟩
  have h0 : (decodeCall stream s).rp = 0 := rfl
  obtain ⟨t, hmove⟩ := decodeMove_answers hs.2 (absurd h0)
  have ht : step (decodeCall stream s) = .next t := (step_of_dec hs.1 hs.2).trans hmove
  refine ⟨t, ht, fun code => (decode_step_fails_iff hs ht).trans ⟨?_, ?_⟩⟩
  · rintro ⟨e, hdec, rfl⟩
    rcases (decode_first_eq_error s).mp hdec with ⟨rfl, hlen⟩ | ⟨rfl, hmagic⟩
    · exact .inl ⟨rfl, hlen⟩
    · exact .inr ⟨rfl, hmagic⟩
  · rintro (⟨rfl, hlen⟩ | ⟨rfl, hmagic⟩)
    · exact ⟨.tooShort, (decode_first_eq_error s).mpr (.inl ⟨rfl, hlen⟩), rfl⟩
    · exact ⟨.badMagic, (decode_first_eq_error s).mpr (.inr ⟨rfl, hmagic⟩), rfl⟩

end

/-! ## The statements -/

/-- Settles O10: at a boundary the decoder rejects exactly fewer than 8 bytes, and a rejection empties the sink. -/
theorem shortTailIsMissingEndMarker : Obligations.ShortTailIsMissingEndMarker := by
  intro s hs hrp
  refine ⟨⟨?_, fun hlen => ?_⟩, fun t ht hview => ?_⟩
  · rintro ⟨t, ht, hview⟩
    obtain ⟨e, hdec, -⟩ := (decode_step_fails_iff hs ht).mp hview
    exact ((decode_at_boundary_eq_error hrp).mp hdec).2
  · exact ⟨_, step_of_decode_error hs ((decode_at_boundary_eq_error hrp).mpr ⟨rfl, hlen⟩), rfl⟩
  · obtain ⟨e, hdec, -⟩ := (decode_step_fails_iff hs ht).mp hview
    rw [step_of_decode_error hs hdec] at ht
    cases ht
    exact ⟨rfl, rfl⟩

/-- Settles O7: a rejection raises the failure of its name, whose code is the one of R270. -/
theorem decodeFailureEndsTheCall : Obligations.DecodeFailureEndsTheCall := by
  intro s e hs hdec
  exact ⟨Reject.failure e, step_of_decode_error hs hdec, by cases e <;> rfl⟩

/-- Settles O8: of the header's two checks the length has code 1. -/
theorem shortStreamIsTooShort : Obligations.ShortStreamIsTooShort := by
  intro stream s
  obtain ⟨t, ht, hfails⟩ := first_decode_step_fails_iff stream s
  exact ⟨t, ht, by simp [hfails]⟩

/-- Settles O9: of the header's two checks the magic has code 2. -/
theorem wrongMagicIsBadMagic : Obligations.WrongMagicIsBadMagic := by
  intro stream s
  obtain ⟨t, ht, hfails⟩ := first_decode_step_fails_iff stream s
  exact ⟨t, ht, by simp [hfails, Config.magic]⟩

/-- Settles O25: before its header an encode call checks CHANNELS and raises InvalidChannels. -/
theorem invalidChannelsFailsFirst : Obligations.InvalidChannelsFailsFirst :=
  fun _ hs h0 hc => ⟨.invalidChannels, rfl, (step_of_enc hs.1 hs.2).trans (encodeMove_of_bad_channels h0 hc)⟩

/-- Settles O26: behind the check of CHANNELS stands that of the size, which raises SizeMismatch. -/
theorem sizeMismatchFailsNext : Obligations.SizeMismatchFailsNext :=
  fun _ hs h0 hc hsize =>
    ⟨.sizeMismatch, rfl, (step_of_enc hs.1 hs.2).trans (encodeMove_of_wrong_size h0 hc hsize)⟩

end Sys2Proof.Machine

/-! Proofs of the statements of 70_reset_and_hazards.md: what a call leaves alone, the end of an encode call, and the
round trip, in which a decode call of the stream an encode call made mirrors it opcode by opcode. -/

namespace Sys2Proof.Machine

/-! ## What a call leaves alone (R318) -/

/-- The host's side of a state: what a call does not write, with its own registers and the sink cleared. -/
def hostSide (s : State) : State :=
  { s with
    prev := Pixel.zero
    px := Pixel.zero
    cache := Vector.replicate 64 Pixel.zero
    run := 0
    rp := 0
    snkLen := 0
    status := .idle
    err := none
    snk := [] }

section
variable {s t : State}

theorem hostSide_eq_iff :
    hostSide t = hostSide s ↔ t.mode = s.mode ∧ t.width = s.width ∧ t.height = s.height ∧ t.channels = s.channels ∧
      t.colorspace = s.colorspace ∧ t.srcLen = s.srcLen ∧ t.src = s.src ∧ t.decBadChannels = s.decBadChannels ∧
      t.host = s.host ∧ t.withheld = s.withheld := by
  simp [hostSide]

/-- A step of the encode pass changes the registers `pixelResolved` names. -/
theorem step_of_atPixel_eq_pixelResolved (h : atPixel s) :
    ∃ run cache bytes, step s = .next (pixelResolved run cache bytes s) := by
  obtain ⟨run, cache, bytes, hstep, -⟩ := step_of_atPixel_withUnread s.px s.withheld s.decBadChannels h
  exact ⟨run, cache, bytes, hstep⟩

theorem hostSide_of_encode_step (hs : encoding s) (ht : step s = .next t) : hostSide t = hostSide s := by
  have hmove := ht
  rw [step_of_enc hs.1 hs.2] at hmove
  rcases encodeMove_eq_next hs.2 hmove with
    ⟨-, f, -, rfl⟩ | ⟨-, -, -, rfl⟩ | ⟨h0, -, hc, hle, -⟩ | ⟨-, -, rfl⟩
  · rfl
  · rfl
  · obtain ⟨run, cache, bytes, hstep⟩ := step_of_atPixel_eq_pixelResolved ⟨hs, h0, hc, hle⟩
    cases hstep.symm.trans ht
    rfl
  · rfl

/-- Only the header of a decode call writes on the host's side, and it writes the descriptor alone
(40_header_trailer.md R124). -/
theorem hostSide_of_decode_step (hs : decoding s) (ht : step s = .next t) :
    hostSide t = hostSide s ∨ (s.rp = 0 ∧ ∃ w h c cs, hostSide t = hostSide (loadHeader w h c cs s)) := by
  rw [step_of_dec hs.1 hs.2] at ht
  rcases decodeMove_eq_next hs.2 ht with
    ⟨f, rfl⟩ | ⟨h0, w, h, c, cs, rfl⟩ | ⟨-, i, chunk, -, -, -, rfl⟩ | ⟨-, -, rfl⟩
  · exact .inl rfl
  · exact .inr ⟨h0, w, h, c, cs, rfl⟩
  · exact .inl rfl
  · exact .inl rfl

theorem hostSide_of_running_step (hr : s.status = .running) (ht : step s = .next t) :
    hostSide t = hostSide s ∨
      (s.mode = .dec ∧ s.rp = 0 ∧ ∃ w h c cs, hostSide t = hostSide (loadHeader w h c cs s)) := by
  cases hm : s.mode with
  | enc => exact .inl (hostSide_of_encode_step ⟨hr, hm⟩ ht)
  | dec =>
    rcases hostSide_of_decode_step ⟨hr, hm⟩ ht with hside | ⟨h0, hside⟩
    · exact .inl hside
    · exact .inr ⟨rfl, h0, hside⟩

end

/-- Settles O44: a step of a call keeps the host's side, but for the descriptor where it parses the header. -/
theorem callLeavesTheHostsSideAlone : Obligations.CallLeavesTheHostsSideAlone := by
  intro s t hr ht
  rcases hostSide_of_running_step hr ht with hside | ⟨hm, h0, w, h, c, cs, hside⟩
  · obtain ⟨hmode, hw, hh, hc, hcs, hlen, hsrc, hd, hhost, hk⟩ := hostSide_eq_iff.mp hside
    exact ⟨hsrc, hlen, hmode, hhost, hd, hk, fun _ => ⟨hw, hh, hc, hcs⟩⟩
  · obtain ⟨hmode, -, -, -, -, hlen, hsrc, hd, hhost, hk⟩ := hostSide_eq_iff.mp hside
    have hbegun : ¬(s.mode = .enc ∨ s.rp ≠ 0) := by simp [hm, h0]
    exact ⟨hsrc, hlen, hmode, hhost, hd, hk, fun hkept => absurd hkept hbegun⟩

/-! ## The states an encode pass goes through -/

/-- The pixel in front is counted into the open run (42_encoder.md R162). -/
def pixelCounted (s : State) : State := pixelResolved (s.run + 1) s.cache [] s

/-- The open run, if there is one, is flushed (42_encoder.md R164). -/
def runFlushed (s : State) : State := { memWrite (runBytes s) s with run := 0 }

/-- The pixel in front is emitted as the opcode selected for it, and inserted where that opcode inserts it
(42_encoder.md R166, R167). -/
def pixelCoded (s : State) : State :=
  pixelResolved 0
    (if insertsPixel (selectedOpcode s) then s.cache.set (hashSlot (nextPixel s)) (nextPixel s) else s.cache)
    (encode (selectedOpcode s)) s

section
variable {s : State}

theorem runBytes_of_zero (h : s.run = 0) : runBytes s = [] := if_pos h

/-- The byte of an open run is RUN of its length (42_encoder.md R175). -/
theorem runBytes_of_ne_zero (h : s.run ≠ 0) : runBytes s = encode (.run s.run.toNat) := by
  rw [runBytes, if_neg h, ← encode_run_succ, BitVec.sub_add_cancel]

theorem runFlushed_of_zero (h : s.run = 0) : runFlushed s = s := by
  rw [runFlushed, runBytes_of_zero h, memWrite_nil, ← h]

/-- A repeated pixel that fills the run or ends the input is counted, then the run is flushed
(42_encoder.md R163, R165). -/
theorem step_of_run_ended (h : atPixel s) (heq : nextPixel s = s.prev)
    (hflush : s.run + 1 = 62 ∨ behindPixel s = s.srcLen) (hrun : s.run.toNat ≤ 61) :
    step s = .next (runFlushed (pixelCounted s)) := by
  have hopen : (pixelCounted s).run ≠ 0 := by
    change s.run + 1 ≠ 0
    bv_omega
  have hbyte : runBytes (pixelCounted s) = [0xc0 ||| s.run.setWidth 8] :=
    (runBytes_of_ne_zero hopen).trans (encode_run_succ s.run)
  rw [step_of_run_flushed h heq hflush, runFlushed, hbyte]
  simp [pixelCounted, pixelResolved, memWrite]

/-- A differing pixel: the open run is flushed, then the pixel is emitted as its opcode (42_encoder.md R164). -/
theorem step_of_differing_pixel (h : atPixel s) (hne : nextPixel s ≠ s.prev) :
    step s = .next (pixelCoded (runFlushed s)) := by
  have hflush (cache : Vector Pixel 64) (bytes : List Byte) :
      pixelResolved 0 cache (runBytes s ++ bytes) s = pixelResolved 0 cache bytes (runFlushed s) :=
    pixelResolved_runBytes cache bytes s
  have hop : selectedOpcode (runFlushed s) = selectedOpcode s := rfl
  by_cases hit : s.cache[hashSlot (nextPixel s)] = nextPixel s
  · rw [step_of_hit h hne hit, hflush, pixelCoded, hop, selectedOpcode, if_pos hit]
    rfl
  · rw [step_of_miss h hne hit, hflush, pixelCoded, hop, selectedOpcode, if_neg hit,
      if_pos (missOpcode_inserts _ _).2]
    rfl

/-- What a step of the encode pass can do: count the pixel, count it and flush the run, or flush the run and emit the
pixel's opcode. -/
theorem step_of_atPixel_cases (h : atPixel s) (hrun : s.run.toNat ≤ 61) :
    (nextPixel s = s.prev ∧ step s = .next (pixelCounted s)) ∨
    (nextPixel s = s.prev ∧ step s = .next (runFlushed (pixelCounted s))) ∨
    (nextPixel s ≠ s.prev ∧ step s = .next (pixelCoded (runFlushed s))) := by
  by_cases heq : nextPixel s = s.prev
  · by_cases hflush : s.run + 1 = 62 ∨ behindPixel s = s.srcLen
    · exact .inr (.inl ⟨heq, step_of_run_ended h heq hflush hrun⟩)
    · obtain ⟨hmax, hend⟩ := not_or.mp hflush
      exact .inl ⟨heq, step_of_run_continued h heq hmax hend⟩
  · exact .inr (.inr ⟨heq, step_of_differing_pixel h heq⟩)

end

/-- The rest of an encode call from a state of its body: its steps up to the trailer, and the bytes they append. -/
inductive PassAppends : State → List Byte → Prop where
  | exhausted {e : State} (hend : e.rp = e.srcLen) (hrun : e.run = 0) : PassAppends e Config.trailer
  | counted {e : State} {rest : List Byte} (hat : atPixel e) (heq : nextPixel e = e.prev) (hrun : e.run.toNat ≤ 61)
      (hstep : step e = .next (pixelCounted e)) (hrest : PassAppends (pixelCounted e) rest) : PassAppends e rest
  | flushed {e : State} {rest : List Byte} (hat : atPixel e) (heq : nextPixel e = e.prev) (hrun : e.run.toNat ≤ 61)
      (hstep : step e = .next (runFlushed (pixelCounted e)))
      (hrest : PassAppends (runFlushed (pixelCounted e)) rest) :
      PassAppends e (runBytes (pixelCounted e) ++ rest)
  | coded {e : State} {rest : List Byte} (hat : atPixel e) (hne : nextPixel e ≠ e.prev) (hrun : e.run.toNat ≤ 61)
      (hstep : step e = .next (pixelCoded (runFlushed e))) (hrest : PassAppends (pixelCoded (runFlushed e)) rest) :
      PassAppends e (runBytes e ++ (encode (selectedOpcode e) ++ rest))

/-! ## The end of an encode call (R330) -/

/-- An encode call that has ended in DONE, from a state of its body, having appended these bytes. -/
structure EncodeDone (e : State) (bytes : List Byte) (t : State) : Prop where
  status : t.status = .done
  rp : t.rp = e.srcLen
  run : t.run = 0
  snk : t.snk = e.snk ++ bytes
  hostSide : hostSide t = hostSide e

section
variable {e : State}

/-- The pass takes a step for each pixel left, and one for the trailer. -/
theorem passAppends_of_pixels_left {k : Nat} (hi : Inv e) (hs : encoding e) (h0 : e.snkLen ≠ 0)
    (hk : e.rp + k * e.channels.toNat = e.srcLen) :
    ∃ rest t, PassAppends e rest ∧ core.run (k + 1) e = .next t ∧ EncodeDone e rest t := by
  induction k generalizing e with
  | zero =>
    have hend : e.rp = e.srcLen := by omega
    have hrun : e.run = 0 := hi.encEnd hs.1 hs.2 hend
    have hstep : step e = .next (finish (emit .endMarker e)) :=
      (step_of_enc hs.1 hs.2).trans (encodeMove_of_exhausted hs.2 h0 hend.ge)
    exact ⟨_, _, .exhausted hend hrun, run_succ_eq_next.mpr ⟨_, hstep, rfl⟩, rfl, hend, hrun, rfl, rfl⟩
  | succ k ih =>
    rw [Nat.succ_mul] at hk
    obtain ⟨hc, -, -⟩ := hi.encBody hs.1 hs.2 h0
    have hat : atPixel e := ⟨hs, h0, hc, by omega⟩
    have hnext {u : State} (hstep : step e = .next u) (hr : u.status = .running) (hl : e.snkLen ≤ u.snkLen)
        (hrp : u.rp = behindPixel e) :
        ∃ rest t, PassAppends u rest ∧ core.run (k + 1 + 1) e = .next t ∧ EncodeDone u rest t := by
      obtain ⟨hmode, -, -, hchannels, -, hlen, -⟩ := hostSide_eq_iff.mp (hostSide_of_encode_step hs hstep)
      obtain ⟨rest, t, hpass, hrun, hdone⟩ := ih (stepKeepsTheInvariant e u hi hstep) ⟨hr, hmode.trans hs.2⟩ (by omega)
        (by rw [hrp, hchannels, hlen, behindPixel]; omega)
      exact ⟨rest, t, hpass, run_succ_eq_next.mpr ⟨u, hstep, hrun⟩, hdone⟩
    have hrun := hi.run_le
    rcases step_of_atPixel_cases hat hrun with ⟨heq, hstep⟩ | ⟨heq, hstep⟩ | ⟨hne, hstep⟩
    · obtain ⟨rest, t, hpass, ht, hdone⟩ := hnext hstep hs.1 le_rfl rfl
      refine ⟨_, t, .counted hat heq hrun hstep hpass, ht, { hdone with snk := ?_ }⟩
      rw [hdone.snk, pixelCounted, pixelResolved, List.append_nil]
    · obtain ⟨rest, t, hpass, ht, hdone⟩ := hnext hstep hs.1 (by exact Nat.le_add_right _ _) rfl
      refine ⟨_, t, .flushed hat heq hrun hstep hpass, ht, { hdone with snk := ?_ }⟩
      rw [hdone.snk, ← List.append_assoc]
      simp [runFlushed, pixelCounted, pixelResolved]
    · obtain ⟨rest, t, hpass, ht, hdone⟩ := hnext hstep hs.1
        (by exact Nat.le_add_right_of_le (Nat.le_add_right _ _)) rfl
      refine ⟨_, t, .coded hat hne hrun hstep hpass, ht, { hdone with snk := ?_ }⟩
      rw [hdone.snk, ← List.append_assoc, ← List.append_assoc]
      rfl

end

/-! ## No early trailer (R323) -/

/-- What lies from a boundary of the body to the end of a stream: the trailer stands behind at least a byte of it,
and not yet in front. -/
def AtOpcode (bytes : List Byte) : Prop := 9 ≤ bytes.length ∧ bytes.take 8 ≠ Config.trailer

section
variable {i : Instr} {bytes rest : List Byte} {e s : State}

/-- The trailer begins with a zero byte and six more before the one that ends it. -/
theorem eq_zero_cons_of_trailer (h : bytes.take 8 = Config.trailer) :
    ∃ tail, bytes = 0 :: tail ∧ tail.take 7 = [0, 0, 0, 0, 0, 0, 1] := by
  cases bytes with
  | nil => cases h
  | cons b tail =>
    obtain ⟨rfl, hseven⟩ := List.cons.inj h
    exact ⟨tail, rfl, hseven⟩

/-- Only INDEX of slot 0 begins with a zero byte (30_encoding.md R93 to R98). -/
theorem eq_index_zero_of_encode (hw : i.WellFormed) (hop : isOpcode i) (h : encode i ++ rest = 0 :: bytes) :
    i = .index 0 ∧ rest = bytes := by
  obtain ⟨t, tail, he, hdec⟩ := decodeTag_encode hw hop.1 hop.2 rest
  cases he.symm.trans h
  have hzero : decodeTag 0 bytes = .ok (.index 0, bytes) := rfl
  cases hdec.symm.trans hzero
  exact ⟨rfl, rfl⟩

theorem length_opcode_append (i : Instr) (hrest : 8 ≤ rest.length) : 9 ≤ (encode i ++ rest).length := by
  have hi := i.length_pos
  rw [List.length_append, length_encode]
  omega

/-- Another opcode than INDEX of slot 0 is not taken for the trailer, whatever follows it. -/
theorem atOpcode_of_ne_index_zero (hw : i.WellFormed) (hop : isOpcode i) (hne : i ≠ .index 0)
    (hrest : 8 ≤ rest.length) : AtOpcode (encode i ++ rest) := by
  refine ⟨length_opcode_append i hrest, fun htrailer => ?_⟩
  obtain ⟨tail, htail, -⟩ := eq_zero_cons_of_trailer htrailer
  exact hne (eq_index_zero_of_encode hw hop htail).1

theorem run_wellFormed (h0 : s.run ≠ 0) (hrun : s.run.toNat ≤ 62) : (Instr.run s.run.toNat).WellFormed := by
  have hpos : 1 ≤ s.run.toNat := by bv_omega
  exact decide_eq_true ⟨hpos, hrun⟩

theorem atOpcode_runBytes (h0 : s.run ≠ 0) (hrun : s.run.toNat ≤ 62) (hrest : 8 ≤ rest.length) :
    AtOpcode (runBytes s ++ rest) := by
  rw [runBytes_of_ne_zero h0]
  exact atOpcode_of_ne_index_zero (run_wellFormed h0 hrun) ⟨rfl, nofun⟩ nofun hrest

theorem lookup_zero_of_selected (h : selectedOpcode s = .index 0) : lookup 0 s = nextPixel s := by
  by_cases hit : s.cache[hashSlot (nextPixel s)] = nextPixel s
  · rw [selectedOpcode, if_pos hit] at h
    have hslot : hashSlot (nextPixel s) = 0 := Instr.index.inj h
    exact (congrArg (lookup · s) hslot).symm.trans hit
  · have hins := (missOpcode_inserts (nextPixel s) s.prev).2
    rw [selectedOpcode, if_neg hit] at h
    rw [h] at hins
    cases hins

/-- Counting a pixel does not wrap RUN, as it is flushed before it could (42_encoder.md R163). -/
theorem run_pixelCounted (hrun : s.run.toNat ≤ 61) : (pixelCounted s).run.toNat = s.run.toNat + 1 := by
  change (s.run + 1).toNat = s.run.toNat + 1
  bv_omega

theorem run_pixelCounted_le (hrun : s.run.toNat ≤ 61) : (pixelCounted s).run.toNat ≤ 62 := by
  rw [run_pixelCounted hrun]
  omega

theorem run_pixelCounted_ne_zero (hrun : s.run.toNat ≤ 61) : (pixelCounted s).run ≠ 0 := by
  intro h0
  have hcount := run_pixelCounted hrun
  rw [h0] at hcount
  cases hcount

/-- A zero byte in front of the encoder, but the trailer's, is an INDEX of slot 0, which is no opcode for the pixel
PREV holds already (42_encoder.md R162). -/
theorem PassAppends.slot_zero_ne_prev (h : PassAppends e rest) (h0 : rest = 0 :: bytes) :
    rest = Config.trailer ∨ lookup 0 e ≠ e.prev := by
  induction h with
  | exhausted => exact .inl rfl
  | counted hat heq hrun hstep hrest ih => exact (ih h0).imp_right (heq ▸ ·)
  | @flushed e rest hat heq hrun hstep hrest ih =>
    rw [runBytes_of_ne_zero (run_pixelCounted_ne_zero hrun)] at h0
    have hw := run_wellFormed (run_pixelCounted_ne_zero hrun) (run_pixelCounted_le hrun)
    cases (eq_index_zero_of_encode hw ⟨rfl, nofun⟩ h0).1
  | @coded e rest hat hne hrun hstep hrest ih =>
    by_cases hopen : e.run = 0
    · rw [runBytes_of_zero hopen, List.nil_append] at h0
      obtain ⟨hw, hop, -⟩ := selectedOpcode_valid e
      rw [lookup_zero_of_selected (eq_index_zero_of_encode hw hop h0).1]
      exact .inr hne
    · rw [runBytes_of_ne_zero hopen] at h0
      cases (eq_index_zero_of_encode (run_wellFormed hopen (by omega)) ⟨rfl, nofun⟩ h0).1

/-- Behind the INDEX of slot 0 the next opcode has no zero byte in front, as the trailer would need. -/
theorem PassAppends.atOpcode_selected (h : PassAppends (pixelCoded e) rest) (hlen : 8 ≤ rest.length) :
    AtOpcode (encode (selectedOpcode e) ++ rest) := by
  obtain ⟨hw, hop, -⟩ := selectedOpcode_valid e
  by_cases hzero : selectedOpcode e = .index 0
  · refine ⟨length_opcode_append _ hlen, fun htrailer => ?_⟩
    obtain ⟨tail, htail, hseven⟩ := eq_zero_cons_of_trailer htrailer
    obtain ⟨-, rfl⟩ := eq_index_zero_of_encode hw hop htail
    obtain ⟨b, bytes, rfl⟩ := List.exists_cons_of_length_pos (l := rest) (by omega)
    obtain ⟨rfl, -⟩ := List.cons.inj hseven
    rcases h.slot_zero_ne_prev rfl with hend | hne
    · rw [hend] at hseven
      cases hseven
    · have hkept : lookup 0 (pixelCoded e) = lookup 0 e := by
        rw [pixelCoded, hzero]
        rfl
      exact hne (hkept.trans (lookup_zero_of_selected hzero))
  · exact atOpcode_of_ne_index_zero hw hop hzero hlen

theorem length_of_tail (h : rest = Config.trailer ∨ AtOpcode rest) : 8 ≤ rest.length := by
  rcases h with rfl | h
  · exact le_rfl
  · exact Nat.le_of_succ_le h.1

/-- What an encode call still appends is the trailer, or an opcode that is not taken for it. -/
theorem PassAppends.tail (h : PassAppends e rest) : rest = Config.trailer ∨ AtOpcode rest := by
  induction h with
  | exhausted => exact .inl rfl
  | counted hat heq hrun hstep hrest ih => exact ih
  | flushed hat heq hrun hstep hrest ih =>
    exact .inr (atOpcode_runBytes (run_pixelCounted_ne_zero hrun) (run_pixelCounted_le hrun)
      (length_of_tail ih))
  | @coded e rest hat hne hrun hstep hrest ih =>
    have hop : AtOpcode (encode (selectedOpcode e) ++ rest) := hrest.atOpcode_selected (length_of_tail ih)
    by_cases hopen : e.run = 0
    · rw [runBytes_of_zero hopen]
      exact .inr hop
    · exact .inr (atOpcode_runBytes hopen (by omega) (length_of_tail (.inr hop)))

end

/-! ## One opcode of a decode call -/

/-- The bytes of SRC that a decode call has not read. -/
def remaining (s : State) : List Byte := s.src.slice s.rp (s.srcLen - s.rp)

section
variable {i : Instr} {more : List Byte} {d s : State}

theorem Memory.slice_add (m : Memory) (a j k : Nat) : m.slice a (j + k) = m.slice a j ++ m.slice (a + j) k := by
  induction j generalizing a with
  | zero => rw [Nat.zero_add]; rfl
  | succ j ih =>
    rw [Nat.add_right_comm, Memory.slice, Memory.slice, ih, Nat.add_right_comm]
    rfl

theorem length_remaining (s : State) : (remaining s).length = s.srcLen - s.rp := Memory.length_slice ..

theorem Memory.take_slice (m : Memory) (a n k : Nat) : (m.slice a n).take k = m.slice a (min k n) := by
  induction n generalizing a k with
  | zero => simp [Memory.slice]
  | succ n ih =>
    cases k with
    | zero => simp [Memory.slice]
    | succ k => rw [Memory.slice, List.take_succ_cons, ih, Nat.add_min_add_right, Memory.slice]

theorem window_eq_take_remaining (s : State) : window s = (remaining s).take 22 :=
  (Memory.take_slice s.src s.rp (s.srcLen - s.rp) 22).symm

/-- Behind an instruction remains what lay behind its bytes. -/
theorem slice_behind (h : remaining s = encode i ++ more) :
    s.src.slice (s.rp + i.length) (s.srcLen - (s.rp + i.length)) = more := by
  have hlen : s.srcLen - s.rp = i.length + more.length := by
    rw [← length_remaining, h, List.length_append, length_encode]
  rw [remaining, hlen, Memory.slice_add] at h
  have hmore := (List.append_inj h (by rw [Memory.length_slice, length_encode])).2
  rwa [show s.srcLen - (s.rp + i.length) = more.length by omega]

/-- An opcode at a boundary of a body is executed, as its bytes say. -/
theorem DecodeBody.step_opcode (hd : DecodeBody d) (hw : i.WellFormed) (hop : isOpcode i)
    (hrem : remaining d = encode i ++ more) (hat : AtOpcode (encode i ++ more)) :
    step d = .next
      (opcodeDecoded i (List.replicate (pixelCount i) (chunkBytes d.channels (decodedPixel i d))).flatten d) := by
  obtain ⟨hlen, htrailer⟩ := hat
  have hshort : (encode i).length ≤ 22 := by
    have := length_of_isOpcode hop
    rw [length_encode]
    omega
  have htake : (encode i ++ more).take 22 = encode i ++ more.take (22 - (encode i).length) := by
    rw [List.take_append, List.take_of_length_le hshort]
  have hdec : decode (position d) (window d) = .ok (i, more.take (22 - (encode i).length)) := by
    rw [position, if_neg hd.behindHeader, window_eq_take_remaining, hrem, htake]
    refine decodeBoundary_encode hw hop ?_ ?_
    · rw [← htake, List.length_take]
      omega
    · rwa [← htake, List.take_take]
  exact (step_of_decode_ok hd.decoding hdec).trans
    (exec_dec_opcode_of_chunk hop hd.decoding.2 (pixelChunk_of_channels hd.channels _))

end

/-! ## The mirror (R321) -/

/-- The decode call `d` stands where the encode call `e` does: behind the bytes `e` has emitted, with `bytes` still to
read, its PREV, CACHE and descriptor are those of `e`, and what it has written lacks of the chunks `e` has read those
of the open run alone. -/
structure Mirrors (bytes : List Byte) (e d : State) : Prop where
  body : DecodeBody d
  unread : remaining d = bytes
  width : d.width = e.width
  height : d.height = e.height
  channels : d.channels = e.channels
  colorspace : d.colorspace = e.colorspace
  prev : d.prev = e.prev
  cache : d.cache = e.cache
  snkLen_eq : d.snkLen = d.snk.length
  written : d.snk ++ (List.replicate e.run.toNat (chunkBytes e.channels e.prev)).flatten = e.src.slice 0 e.rp

/-- The chunk of the pixel in front is the stretch of SRC it was read from (42_encoder.md R161). -/
theorem chunkBytes_nextPixel {s : State} (h : channelsDefined s) :
    chunkBytes s.channels (nextPixel s) = s.src.slice s.rp s.channels.toNat := by
  rcases h with h | h <;> rw [nextPixel, chunkBytes, h] <;> rfl

section
variable {i : Instr} {rest : List Byte} {e d : State}

/-- The bytes read behind the chunk in front are those read up to it and the chunk. -/
theorem slice_behindPixel (h : channelsDefined e) :
    e.src.slice 0 (behindPixel e) = e.src.slice 0 e.rp ++ chunkBytes e.channels (nextPixel e) := by
  rw [behindPixel, Memory.slice_add, Nat.zero_add, chunkBytes_nextPixel h]

/-- The encoder counts a repeated pixel, and the decoder has nothing to do yet. -/
theorem Mirrors.counted (h : Mirrors rest e d) (hat : atPixel e) (heq : nextPixel e = e.prev)
    (hrun : e.run.toNat ≤ 61) : Mirrors rest (pixelCounted e) d := by
  obtain ⟨-, -, hc, -⟩ := hat
  refine { h with prev := h.prev.trans heq.symm, written := ?_ }
  calc d.snk ++ (List.replicate (pixelCounted e).run.toNat (chunkBytes e.channels (nextPixel e))).flatten
    _ = d.snk ++ (List.replicate e.run.toNat (chunkBytes e.channels e.prev)).flatten ++
          chunkBytes e.channels (nextPixel e) := by
        rw [run_pixelCounted hrun, List.replicate_succ', List.flatten_append, List.flatten_singleton, heq,
          List.append_assoc]
    _ = e.src.slice 0 (behindPixel e) := by rw [h.written, slice_behindPixel hc]

/-- The open run goes out as RUN, which writes the pixels of it. -/
theorem Mirrors.flushed (h : Mirrors (runBytes e ++ rest) e d) (h0 : e.run ≠ 0) (hrun : e.run.toNat ≤ 62)
    (hat : AtOpcode (runBytes e ++ rest)) : ∃ d', step d = .next d' ∧ Mirrors rest (runFlushed e) d' := by
  have hrem := h.unread
  rw [runBytes_of_ne_zero h0] at hrem hat
  refine ⟨_, h.body.step_opcode (run_wellFormed h0 hrun) ⟨rfl, nofun⟩ hrem hat, { h with
    body := ⟨h.body.decoding, by exact Nat.succ_ne_zero _, h.body.channels, h.body.host⟩
    unread := slice_behind hrem
    snkLen_eq := ?_
    written := ?_ }⟩
  · rw [opcodeDecoded, h.snkLen_eq, List.length_append]
  · calc d.snk ++ (List.replicate e.run.toNat (chunkBytes d.channels d.prev)).flatten ++ []
      _ = e.src.slice 0 e.rp := by rw [List.append_nil, h.channels, h.prev, h.written]

/-- The selected opcode goes out, which stands for the encoder's pixel. -/
theorem Mirrors.coded (h : Mirrors (encode (selectedOpcode e) ++ rest) e d) (h0 : e.run = 0)
    (hc : channelsDefined e) (hat : AtOpcode (encode (selectedOpcode e) ++ rest)) :
    ∃ d', step d = .next d' ∧ Mirrors rest (pixelCoded e) d' := by
  obtain ⟨hw, hop, hcount⟩ := selectedOpcode_valid e
  have hpixel : decodedPixel (selectedOpcode e) d = nextPixel e := decodedPixel_selectedOpcode h.prev h.cache
  have hread : d.snk = e.src.slice 0 e.rp := by
    have hwritten := h.written
    rw [h0] at hwritten
    exact (List.append_nil _).symm.trans hwritten
  refine ⟨_, h.body.step_opcode hw hop h.unread hat, { h with
    body := ⟨h.body.decoding, ?_, h.body.channels, h.body.host⟩
    unread := slice_behind h.unread
    prev := hpixel
    cache := ?_
    snkLen_eq := ?_
    written := ?_ }⟩
  · exact Nat.ne_zero_of_lt (Nat.lt_add_of_pos_right (selectedOpcode e).length_pos)
  · simp only [opcodeDecoded, pixelCoded, pixelResolved, hpixel, h.cache]
  · rw [opcodeDecoded, h.snkLen_eq, List.length_append]
  · calc d.snk ++ (List.replicate (pixelCount (selectedOpcode e))
          (chunkBytes d.channels (decodedPixel (selectedOpcode e) d))).flatten ++ []
      _ = e.src.slice 0 e.rp ++ chunkBytes e.channels (nextPixel e) := by
        rw [List.append_nil, hcount, List.replicate_one, List.flatten_singleton, hpixel, hread, h.channels]
      _ = e.src.slice 0 (behindPixel e) := (slice_behindPixel hc).symm

end

/-! ## A decode call that mirrors to its end -/

/-- A run goes on by one more step. -/
theorem run_step {M : Host.Core} {k : Nat} {s t u : M.State} (hk : M.run k s = .next t) (ht : M.step t = .next u) :
    M.run (k + 1) s = .next u := by
  induction k generalizing s with
  | zero =>
    cases hk
    exact run_succ_eq_next.mpr ⟨u, ht, rfl⟩
  | succ k ih =>
    obtain ⟨v, hv, hrest⟩ := run_succ_eq_next.mp hk
    exact run_succ_eq_next.mpr ⟨v, hv, ih hrest⟩

/-- From `d` a call comes to a state with this view, and every state it passes has the property `P`. -/
def RunsTo (P : State → Prop) (view : HostView) (d : State) : Prop :=
  (∃ m u, core.run m d = .next u ∧ hostView u = view) ∧ ∀ m u, core.run m d = .next u → P u

/-- The PREV and CACHE of `d` are those of the encode call begun at `start`, after as many pixels as `d` has
written. -/
def EncoderAgrees (start d : State) : Prop :=
  ∃ k e, core.run k start = .next e ∧ e.rp = d.snkLen ∧ e.prev = d.prev ∧ e.cache = d.cache

/-- What R321 and R323 say of each state of a decode call: it has not failed, and at a boundary it agrees with the
encoder and has met the trailer at its end alone. -/
structure MirroredBoundary (start u : State) : Prop where
  notFailed : u.status ≠ .failed
  agrees : 14 ≤ u.rp → EncoderAgrees start u
  tail : u.status = .running → 14 ≤ u.rp → remaining u = Config.trailer ∨ AtOpcode (remaining u)

section
variable {P : State → Prop} {view : HostView} {d d' e start : State} {bytes rest : List Byte}

theorem RunsTo.of_step (hP : P d) (hstep : step d = .next d') (h : RunsTo P view d') : RunsTo P view d := by
  obtain ⟨⟨m, u, hrun, hview⟩, hall⟩ := h
  refine ⟨⟨m + 1, u, run_succ_eq_next.mpr ⟨d', hstep, hrun⟩, hview⟩, fun n v hv => ?_⟩
  cases n with
  | zero =>
    cases hv
    exact hP
  | succ n =>
    obtain ⟨w, hw, hrest⟩ := run_succ_eq_next.mp hv
    cases hstep.symm.trans hw
    exact hall n v hrest

theorem RunsTo.of_ended (hP : P d) (hend : CallEnded d) (hview : hostView d = view) : RunsTo P view d := by
  refine ⟨⟨0, d, rfl, hview⟩, fun n u hu => ?_⟩
  cases hend.run_eq.symm.trans hu
  exact hP

/-- Behind the flush of an open run the decoder has written all the encoder has read. -/
theorem Mirrors.agrees_of_flushed {k : Nat} (h : Mirrors bytes (runFlushed e) d) (hk : core.run k start = .next e) :
    EncoderAgrees start d := by
  have hlen := congrArg List.length h.written
  rw [Memory.length_slice, List.length_append, ← h.snkLen_eq] at hlen
  exact ⟨k, e, hk, hlen.symm, h.prev.symm, h.cache.symm⟩

theorem Mirrors.agrees_of_closed {k : Nat} (h : Mirrors bytes e d) (hrun : e.run = 0)
    (hk : core.run k start = .next e) : EncoderAgrees start d :=
  Mirrors.agrees_of_flushed (by rwa [runFlushed_of_zero hrun]) hk

theorem Mirrors.boundary (h : Mirrors bytes e d) (ha : EncoderAgrees start d)
    (ht : bytes = Config.trailer ∨ AtOpcode bytes) : MirroredBoundary start d where
  notFailed := by simp [h.body.decoding.1]
  agrees _ := ha
  tail _ _ := by rwa [h.unread]

/-- A flush of the encoder is a RUN of the decoder, or nothing where no run is open. -/
theorem Mirrors.runsTo_of_flush (h : Mirrors (runBytes e ++ rest) e d) (hrun : e.run.toNat ≤ 62)
    (hlen : 8 ≤ rest.length) (ha : EncoderAgrees start d)
    (hnext : ∀ {d'}, Mirrors rest (runFlushed e) d' → RunsTo (MirroredBoundary start) view d') :
    RunsTo (MirroredBoundary start) view d := by
  by_cases h0 : e.run = 0
  · rw [runBytes_of_zero h0] at h
    exact hnext (by rwa [runFlushed_of_zero h0])
  · have hat : AtOpcode (runBytes e ++ rest) := atOpcode_runBytes h0 hrun hlen
    obtain ⟨d', hstep, hm⟩ := h.flushed h0 hrun hat
    exact .of_step (h.boundary ha (.inr hat)) hstep (hnext hm)

/-- At the trailer the decode call is done, and has written what the encode call has read. -/
theorem Mirrors.runsTo_of_exhausted (h : Mirrors Config.trailer e d) (hend : e.rp = e.srcLen) (hrun : e.run = 0)
    (ha : EncoderAgrees start d) :
    RunsTo (MirroredBoundary start)
      (.done e.width e.height e.channels e.colorspace (e.src.slice 0 e.srcLen)) d := by
  have hdec : decode (position d) (window d) = .ok (.endMarker, []) := by
    rw [position, if_neg h.body.behindHeader, window_eq_take_remaining, h.unread]
    exact decodeBoundary_encode_endMarker []
  have hstep : step d = .next (finish d) := by
    rw [step_of_decode_ok h.body.decoding hdec, exec_dec_endMarker h.body.decoding.2,
      finishDecode_of_meaning (.inl h.body.channels)]
  have hwritten := h.written
  rw [hrun, hend] at hwritten
  refine .of_step (h.boundary ha (.inl rfl)) hstep (.of_ended ⟨nofun, fun _ => ha, nofun⟩ ⟨.inl rfl, h.body.host⟩ ?_)
  rw [← hwritten, ← h.width, ← h.height, ← h.channels, ← h.colorspace]
  exact congrArg _ (List.append_nil _).symm

/-- Opcode by opcode the decode call follows the rest of the encode call. -/
theorem PassAppends.runsTo (h : PassAppends e rest) {k : Nat} (hk : core.run k start = .next e)
    (hm : Mirrors rest e d) (ha : EncoderAgrees start d) :
    RunsTo (MirroredBoundary start)
      (.done e.width e.height e.channels e.colorspace (e.src.slice 0 e.srcLen)) d := by
  induction h generalizing k d with
  | exhausted hend hrun => exact hm.runsTo_of_exhausted hend hrun ha
  | counted hat heq hrun hstep hrest ih => exact ih (run_step hk hstep) (hm.counted hat heq hrun) ha
  | @flushed e rest hat heq hrun hstep hrest ih =>
    have hk' := run_step hk hstep
    have hlen := length_of_tail hrest.tail
    exact (hm.counted hat heq hrun).runsTo_of_flush (run_pixelCounted_le hrun) hlen ha fun hm' =>
      ih hk' hm' (hm'.agrees_of_closed rfl hk')
  | @coded e rest hat hne hrun hstep hrest ih =>
    obtain ⟨-, -, hc, -⟩ := hat
    have hk' := run_step hk hstep
    have hop : AtOpcode (encode (selectedOpcode e) ++ rest) :=
      hrest.atOpcode_selected (length_of_tail hrest.tail)
    refine hm.runsTo_of_flush (by omega) (length_of_tail (.inr hop)) ha fun hm' => ?_
    obtain ⟨d', hd', hm''⟩ := Mirrors.coded (e := runFlushed e) hm' rfl hc hop
    exact .of_step (hm'.boundary (hm'.agrees_of_flushed hk) (.inr hop)) hd' (ih hk' hm'' (hm''.agrees_of_closed rfl hk'))

end

/-! ## Whole calls -/

section
variable {m n : Nat} {s t u : State}

theorem run_add {M : Host.Core} {m n : Nat} {s u : M.State} :
    M.run (m + n) s = .next u ↔ ∃ t, M.run m s = .next t ∧ M.run n t = .next u := by
  induction m generalizing s with
  | zero => simp [Host.Core.run]
  | succ m ih =>
    rw [Nat.add_right_comm]
    constructor
    · intro h
      obtain ⟨v, hv, hrest⟩ := run_succ_eq_next.mp h
      obtain ⟨t, ht, hu⟩ := ih.mp hrest
      exact ⟨t, run_succ_eq_next.mpr ⟨v, hv, ht⟩, hu⟩
    · rintro ⟨t, ht, hu⟩
      obtain ⟨v, hv, hrest⟩ := run_succ_eq_next.mp ht
      exact run_succ_eq_next.mpr ⟨v, hv, ih.mpr ⟨t, hrest, hu⟩⟩

/-- However long a call is run, it ends in one state. -/
theorem eq_of_run_ended (ht : core.run m s = .next t) (hu : core.run n s = .next u) (hte : CallEnded t)
    (hue : CallEnded u) : t = u := by
  have hlater {j k : Nat} {v w : State} (hv : core.run j s = .next v) (hw : core.run k s = .next w)
      (hve : CallEnded v) (hjk : j ≤ k) : v = w := by
    obtain ⟨i, rfl⟩ := Nat.exists_eq_add_of_le hjk
    obtain ⟨x, hx, hrest⟩ := run_add.mp hw
    cases hv.symm.trans hx
    cases hve.run_eq.symm.trans hrest
    rfl
  rcases Nat.le_total m n with hmn | hnm
  · exact hlater ht hu hte hmn
  · exact (hlater hu ht hue hnm).symm

theorem status_of_hostView_done {w h : Word32} {c cs : Byte} {sink : List Byte}
    (hview : hostView t = .done w h c cs sink) : t.status = .done ∧ t.snk = sink := by
  cases hstatus : t.status with
  | done =>
    rw [hostView, hstatus] at hview
    exact ⟨rfl, (HostView.done.inj hview).2.2.2.2⟩
  | idle | running | failed => simp [hostView, hstatus] at hview

end

/-- A state that reads a stream, with no further move of the host to come. -/
structure ReadsStream (stream : List Byte) (u : State) : Prop where
  src : u.src = Memory.ofList 0 stream
  srcLen : u.srcLen = stream.length
  host : u.host = []

section
variable {stream rest : List Byte} {t u : State}

theorem ReadsStream.of_step (h : ReadsStream stream t) (hstep : step t = .next u) : ReadsStream stream u := by
  by_cases hr : t.status = .running
  · obtain ⟨hsrc, hlen, -, hhost, -⟩ := callLeavesTheHostsSideAlone t u hr hstep
    exact ⟨hsrc.trans h.src, hlen.trans h.srcLen, hhost.trans h.host⟩
  · cases (step_of_host_nil hr h.host).symm.trans hstep
    exact h

theorem ReadsStream.remaining_eq (h : ReadsStream stream u) : remaining u = stream.drop u.rp := by
  rw [remaining, h.src, h.srcLen]
  by_cases hrp : u.rp ≤ stream.length
  · rw [Memory.slice_ofList stream u.rp _ (by omega), ← List.length_drop, List.take_length]
  · rw [Nat.sub_eq_zero_of_le (by omega), List.drop_eq_nil_of_le (by omega), Memory.slice]

variable {w h : Word32} {c cs : Byte} {pixels : List Byte} {s : State}

/-- An encode call whose checks have passed, behind its header (40_header_trailer.md R121). -/
def headerEmitted (w h : Word32) (c cs : Byte) (pixels : List Byte) (s : State) : State :=
  emit (.hdr w h c cs) (encodeCall w h c cs pixels s)

theorem step_encodeCall (hc : c = 3 ∨ c = 4) (hlen : pixels.length = w.toNat * h.toNat * c.toNat) :
    step (encodeCall w h c cs pixels s) = .next (headerEmitted w h c cs pixels s) := by
  rw [step_of_enc (by rfl) (by rfl), encodeMove_of_checked (by rfl) (by rfl) hc hlen]
  rfl

/-- An encode call of a valid image is done after a step for the header, one for each pixel and one for the
trailer. -/
theorem encodeCall_done (hc : c = 3 ∨ c = 4) (hlen : pixels.length = w.toNat * h.toNat * c.toNat) (cs : Byte)
    (s : State) :
    ∃ rest t, PassAppends (headerEmitted w h c cs pixels s) rest ∧
      core.run (w.toNat * h.toNat + 2) (encodeCall w h c cs pixels s) = .next t ∧
      EncodeDone (headerEmitted w h c cs pixels s) rest t := by
  have hstep : step (encodeCall w h c cs pixels s) = .next (headerEmitted w h c cs pixels s) :=
    step_encodeCall hc hlen
  have hi := stepKeepsTheInvariant _ _ (inv_encodeCall w h c cs pixels s) hstep
  have hk : 0 + w.toNat * h.toNat * c.toNat = pixels.length := by rw [Nat.zero_add, hlen]
  obtain ⟨rest, t, hpass, hrun, hdone⟩ :=
    passAppends_of_pixels_left hi ⟨rfl, rfl⟩ (by exact Nat.succ_ne_zero 13) (by exact hk)
  exact ⟨rest, t, hpass, run_succ_eq_next.mpr ⟨_, hstep, hrun⟩, hdone⟩

theorem EncodeDone.view (hd : EncodeDone (headerEmitted w h c cs pixels s) rest t) :
    hostView t = .done w h c cs (encode (.hdr w h c cs) ++ rest) := by
  obtain ⟨-, hw, hh, hch, hcs, -⟩ := hostSide_eq_iff.mp hd.hostSide
  rw [hostView, hd.status, hd.snk, hw, hh, hch, hcs]
  rfl

/-- The stream a completed encode call leaves is the one its pass appends behind the header, however long the call was
run. -/
theorem stream_of_encodeCall {n : Nat} (hc : c = 3 ∨ c = 4)
    (hlen : pixels.length = w.toNat * h.toNat * c.toNat)
    (hrun : core.run n (encodeCall w h c cs pixels s) = .next t) (hview : hostView t = .done w h c cs stream) :
    ∃ rest, PassAppends (headerEmitted w h c cs pixels s) rest ∧ stream = encode (.hdr w h c cs) ++ rest := by
  have hhost {k : Nat} {v : State} (hv : core.run k (encodeCall w h c cs pixels s) = .next v) : v.host = [] :=
    (run_keeps (M := core) (fun _ _ => EncodeWithin.of_step) (encodeWithin_encodeCall w h c cs pixels s) hv).host
  obtain ⟨rest, t', hpass, hrun', hdone⟩ := encodeCall_done hc hlen cs s
  obtain ⟨hstatus, hsnk⟩ := status_of_hostView_done hview
  have heq : t = t' := eq_of_run_ended hrun hrun' ⟨.inl hstatus, hhost hrun⟩ ⟨.inl hdone.status, hhost hrun'⟩
  exact ⟨rest, hpass, by rw [← hsnk, heq, hdone.snk]; rfl⟩

theorem step_decodeCall_of_header (hrest : 8 ≤ rest.length) (s' : State) :
    step (decodeCall (encode (.hdr w h c cs) ++ rest) s') =
      .next (loadHeader w h c cs (decodeCall (encode (.hdr w h c cs) ++ rest) s')) := by
  have htake : (encode (.hdr w h c cs) ++ rest).take 22 = encode (.hdr w h c cs) ++ rest.take 8 := by
    rw [List.take_append, List.take_of_length_le (by rw [length_encode]; exact Nat.le_add_left 14 8), length_encode]
    rfl
  have hdec : decode (position (decodeCall (encode (.hdr w h c cs) ++ rest) s'))
      (window (decodeCall (encode (.hdr w h c cs) ++ rest) s')) = .ok (.hdr w h c cs, rest.take 8) := by
    rw [window_decodeCall, htake]
    exact decodeHeader_encode w h c cs (by rw [List.length_take]; omega)
  rw [step_of_decode_ok ⟨rfl, rfl⟩ hdec, exec_dec_hdr (by rfl)]

/-- Behind both headers the decode call mirrors the encode call, with nothing read or written yet. -/
theorem mirrors_headers (hc : c = 3 ∨ c = 4) (s s' : State) :
    Mirrors rest (headerEmitted w h c cs pixels s)
      (loadHeader w h c cs (decodeCall (encode (.hdr w h c cs) ++ rest) s')) where
  body := ⟨⟨rfl, rfl⟩, Nat.succ_ne_zero 13, hc, rfl⟩
  unread := by
    have hreads : ReadsStream (encode (.hdr w h c cs) ++ rest)
        (loadHeader w h c cs (decodeCall (encode (.hdr w h c cs) ++ rest) s')) := ⟨rfl, rfl, rfl⟩
    exact hreads.remaining_eq.trans (List.drop_left' (length_encode _))
  width := rfl
  height := rfl
  channels := rfl
  colorspace := rfl
  prev := rfl
  cache := rfl
  snkLen_eq := rfl
  written := rfl

/-- A decode call of what an encode call made runs to the image, and mirrors the encode call on its way. -/
theorem decodeCall_runsTo (hc : c = 3 ∨ c = 4) (hlen : pixels.length = w.toNat * h.toNat * c.toNat)
    (hpass : PassAppends (headerEmitted w h c cs pixels s) rest) (s' : State) :
    RunsTo (MirroredBoundary (encodeCall w h c cs pixels s)) (.done w h c cs pixels)
      (decodeCall (encode (.hdr w h c cs) ++ rest) s') := by
  have hk : core.run 1 (encodeCall w h c cs pixels s) = .next (headerEmitted w h c cs pixels s) :=
    run_succ_eq_next.mpr ⟨_, step_encodeCall hc hlen, rfl⟩
  have hm : Mirrors rest (headerEmitted w h c cs pixels s)
      (loadHeader w h c cs (decodeCall (encode (.hdr w h c cs) ++ rest) s')) := mirrors_headers hc s s'
  have hruns := hpass.runsTo hk hm (hm.agrees_of_closed rfl hk)
  have hread : (headerEmitted w h c cs pixels s).src.slice 0 (headerEmitted w h c cs pixels s).srcLen = pixels :=
    Memory.slice_ofList_all pixels
  rw [hread] at hruns
  exact .of_step ⟨nofun, fun h14 => absurd h14 (by exact nofun), fun _ h14 => absurd h14 (by exact nofun)⟩
    (step_decodeCall_of_header (length_of_tail hpass.tail) s') hruns

end

/-! ## The statements -/

/-- Settles O53: the header is a step, then each pixel and the trailer are one. -/
theorem encodeCallEnds : Obligations.EncodeCallEnds := by
  intro w h c cs pixels s hc hlen
  obtain ⟨rest, t, -, hrun, hdone⟩ := encodeCall_done hc hlen cs s
  exact ⟨t, hrun, hdone.status, hdone.rp, hdone.run⟩

/-- Settles O58: what remains at a boundary is what the encode call had still to append there: the trailer, or an
opcode that is not taken for it. -/
theorem encodedStreamHasNoEarlyTrailer : Obligations.EncodedStreamHasNoEarlyTrailer := by
  intro w h c cs pixels stream s s' t u n m hc hlen hrun hview hu hr hrp
  obtain ⟨rest, hpass, rfl⟩ := stream_of_encodeCall hc hlen hrun hview
  have hreads : ReadsStream (encode (.hdr w h c cs) ++ rest) u :=
    run_keeps (M := core) (fun _ _ => ReadsStream.of_step) ⟨rfl, rfl, rfl⟩ hu
  have htail := ((decodeCall_runsTo hc hlen hpass s').2 m u hu).tail hr hrp
  rw [hreads.remaining_eq] at htail
  rcases htail with htrailer | ⟨hnine, hne⟩
  · have hlast := congrArg List.length htrailer
    rw [List.length_drop] at hlast
    exact .inl (by simp only [Config.trailer, List.length_cons, List.length_nil] at hlast; omega)
  · rw [List.length_drop] at hnine
    exact .inr ⟨hnine, hne⟩

/-- Settles O59: the encode call ends, and the decode call of its stream runs to the image. -/
theorem roundTripIdentity : Obligations.RoundTripIdentity := by
  intro w h c cs pixels s hc hlen
  obtain ⟨rest, t, hpass, hrun, hdone⟩ := encodeCall_done hc hlen cs s
  exact ⟨_, t, _, hrun, hdone.view, fun s' => (decodeCall_runsTo hc hlen hpass s').1⟩

/-- Settles O60: every state the decode call of the stream passes mirrors the encode call. -/
theorem decoderMirrorsTheEncoder : Obligations.DecoderMirrorsTheEncoder := by
  intro w h c cs pixels stream s t n hc hlen hrun hview s'
  obtain ⟨rest, hpass, rfl⟩ := stream_of_encodeCall hc hlen hrun hview
  obtain ⟨hends, hall⟩ := decodeCall_runsTo hc hlen hpass s'
  exact ⟨hends, fun m u hu => ⟨(hall m u hu).notFailed, (hall m u hu).agrees⟩⟩

end Sys2Proof.Machine

/-! Proofs of the statements of 93_implementation_defined.md U1: a CHANNELS byte other than 3 and 4, where
DEC_BAD_CHANNELS does not refuse it. -/

namespace Sys2Proof.Machine

section
variable {i : Instr} {s t : State}

theorem pixelChunk_of_as4 (hc : ¬channelsDefined s) (hd : s.decBadChannels = .as4) (p : Pixel) :
    pixelChunk s p = some (chunkBytes 4 p) := by
  obtain ⟨h3, h4⟩ := not_or.mp hc
  rw [pixelChunk, if_neg h3, if_neg h4, hd]
  rfl

theorem pixelChunk_of_fault (hc : ¬channelsDefined s) (hd : s.decBadChannels = .fault) (p : Pixel) :
    pixelChunk s p = some [] := by
  obtain ⟨h3, h4⟩ := not_or.mp hc
  rw [pixelChunk, if_neg h3, if_neg h4, hd]

/-- Under `as4` an opcode does what it does with four channels. -/
theorem exec_dec_opcode_of_as4 (hop : isOpcode i) (hm : s.mode = .dec) (hc : ¬channelsDefined s)
    (hd : s.decBadChannels = .as4) (ht : exec i { s with channels := 4 } = .next t) :
    exec i s = .next { t with channels := s.channels } := by
  have hfour := exec_dec_opcode_of_chunk (s := { s with channels := 4 }) hop hm (pixelChunk_of_channels (.inr rfl) _)
  cases hfour.symm.trans ht
  exact exec_dec_opcode_of_chunk hop hm (pixelChunk_of_as4 hc hd _)

/-- Under `as4` the trailer ends the call as it does with four channels. -/
theorem finishDecode_of_as4 (hd : s.decBadChannels = .as4) (ht : finishDecode { s with channels := 4 } = .next t) :
    finishDecode s = .next { t with channels := s.channels } := by
  obtain rfl := finishDecode_eq_next ht
  exact finishDecode_of_meaning (.inr hd)

/-- Under `fault` an opcode appends nothing, however often it writes its pixel. -/
theorem exec_dec_opcode_of_fault (hop : isOpcode i) (hm : s.mode = .dec) (hc : ¬channelsDefined s)
    (hd : s.decBadChannels = .fault) : exec i s = .next (opcodeDecoded i [] s) := by
  rw [exec_dec_opcode_of_chunk hop hm (pixelChunk_of_fault hc hd _), List.flatten_replicate_nil]

end

/-! ## The statements -/

/-- Settles O22: under `as4` a pixel's chunk is that of four channels, and the trailer ends the call. -/
theorem badChannelsAsFour : Obligations.BadChannelsAsFour := by
  intro i s t hi hm hc hd ht
  rcases isOpcode_or_endMarker hi with hop | rfl
  · exact exec_dec_opcode_of_as4 hop hm hc hd ht
  · rw [exec_dec_endMarker (by exact hm)] at ht
    rw [exec_dec_endMarker hm]
    exact finishDecode_of_as4 hd ht

/-- Settles O23: under `fault` a pixel's chunk is empty, and the call has no end. -/
theorem badChannelsFaultAtTheTrailer : Obligations.BadChannelsFaultAtTheTrailer := by
  intro s hm hc hd
  refine ⟨?_, fun i hop => ⟨opcodeDecoded i [] s, exec_dec_opcode_of_fault hop hm hc hd, ?_, rfl⟩⟩
  · rw [exec_dec_endMarker hm]
    exact finishDecode_of_fault hc hd
  · exact List.append_nil s.snk

end Sys2Proof.Machine
